-- ==== Sys2Proof/Word.lean ====
section
/-! DEFINITION. The words of the machine: 10_state.md R20, R23 and 20_memory.md R43. -/

namespace Sys2Proof

/-- A register, a memory cell, an operand byte: unsigned, 0..255 (00_scope.md R11). -/
abbrev Byte := BitVec 8

/-- The program counter and the 9-bit fields of the fault record (10_state.md R23, R28). -/
abbrev PcWord := BitVec 9

end Sys2Proof
end

