-- ==== Sys2Proof/Config.lean ====
section
/-! DEFINITION. The implementation parameters of 00_scope.md R9, at the values the spec's rules use.
The spec leaves no result open, so there is no free value here. -/

namespace Sys2Proof.Config

/-- `NREG`. -/
abbrev regCount : Nat := 8

/-- `SP_INDEX`: the stack pointer is `x[7]` (10_state.md R21). -/
abbrev spIndex : Fin 8 := 7

/-- `SP_RESET` (10_state.md R21). -/
abbrev spReset : Byte := 244

/-- `STACK_EMPTY`, the bound of the underflow check (44_stack.md R140). -/
abbrev stackEmpty : Byte := 244

/-- `MEM_SIZE`: addresses 0..255 (20_memory.md R40). -/
abbrev memSize : Nat := 256

/-- `LOAD_BASE` (70_reset_and_hazards.md R212). -/
abbrev loadBase : Nat := 0

/-- `RESET_PC` (70_reset_and_hazards.md R211). -/
abbrev resetPc : PcWord := 0

/-- What a cell that nothing has written holds: reset zeroes every cell (10_state.md R30, R34). -/
abbrev unlistedByte : Byte := 0

end Sys2Proof.Config
end

