-- ==== Sys2Proof/Syntax.lean ====
section
/-! DEFINITION. The seventeen instructions of spec/opcode_table.json, in its order (00_scope.md R2, 30_encoding.md R63). -/

namespace Sys2Proof

/-- One constructor per row of the opcode table. A register operand is the WHOLE operand byte: a byte
8..255 is still an instruction, which raises AddressFault when it executes (30_encoding.md R65, R69). -/
inductive Instr where
  | hlt
  | ldi (r imm : Byte)
  | prn (r : Byte)
  | pra (r : Byte)
  | add (rA rB : Byte)
  | mul (rA rB : Byte)
  | inc (r : Byte)
  | dec (r : Byte)
  | cmp (rA rB : Byte)
  | push (r : Byte)
  | pop (r : Byte)
  | call (r : Byte)
  | ret
  | jmp (r : Byte)
  | jeq (r : Byte)
  | jne (r : Byte)
  | st (rA rB : Byte)
  deriving DecidableEq, Repr

end Sys2Proof
end

