-- ==== Sys2Proof/WellFormed.lean ====
section
/-! DEFINITION. Well-formed instructions: every register operand names a register (30_encoding.md R65, R69).
An ill-formed instruction still has an encoding and a meaning: it raises AddressFault (40_engine.md R86). -/

namespace Sys2Proof

/-- The register operands of an instruction, operand 1 before operand 2; LDI's immediate is none
(30_encoding.md R63, R66, R67). -/
def Instr.regOperands : Instr → List Byte
  | .hlt => []
  | .ldi r _ => [r]
  | .prn r => [r]
  | .pra r => [r]
  | .add rA rB => [rA, rB]
  | .mul rA rB => [rA, rB]
  | .inc r => [r]
  | .dec r => [r]
  | .cmp rA rB => [rA, rB]
  | .push r => [r]
  | .pop r => [r]
  | .call r => [r]
  | .ret => []
  | .jmp r => [r]
  | .jeq r => [r]
  | .jne r => [r]
  | .st rA rB => [rA, rB]

/-- A byte names a register when it is 0..7 (30_encoding.md R65). -/
def namesRegister (b : Byte) : Bool := decide (b.toNat < Config.regCount)

/-- Every register operand names a register. -/
def Instr.wellFormed (i : Instr) : Bool := i.regOperands.all namesRegister

end Sys2Proof
end

