-- ==== Sys2Proof/Decode.lean ====
section
/-! DEFINITION. The decoder (40_engine.md R83, R84, R94) and the encoder, both from the one opcode table of
30_encoding.md R63. -/

namespace Sys2Proof

/-- The decoder's `inst` output: one of the seventeen mnemonics (40_engine.md R94). -/
inductive Opcode where
  | hlt | ldi | prn | pra | add | mul | inc | dec | cmp | push | pop | call | ret | jmp | jeq | jne | st
  deriving DecidableEq, Repr

/-- Why bytes are no instruction. -/
inductive DecodeError where
  /-- An opcode byte outside the table (30_encoding.md R64). -/
  | illegalOpcode (op : Byte)
  /-- The byte at this offset of the instruction is not there (30_encoding.md R72). -/
  | missingByte (offset : Nat)
  deriving DecidableEq, Repr

/-- The opcode byte of each mnemonic (30_encoding.md R63; the values are the spec's decision D1, log entry 1). -/
def Opcode.code : Opcode → Byte
  | .hlt  => 0b00000001
  | .ldi  => 0b10000010
  | .prn  => 0b01000111
  | .pra  => 0b01001000
  | .add  => 0b10100000
  | .mul  => 0b10100010
  | .inc  => 0b01100101
  | .dec  => 0b01100110
  | .cmp  => 0b10100111
  | .push => 0b01000101
  | .pop  => 0b01000110
  | .call => 0b01010000
  | .ret  => 0b00010001
  | .jmp  => 0b01010100
  | .jeq  => 0b01010101
  | .jne  => 0b01010110
  | .st   => 0b10000100

/-- The rows of the table, in the spec's order. -/
def Opcode.all : List Opcode :=
  [.hlt, .ldi, .prn, .pra, .add, .mul, .inc, .dec, .cmp, .push, .pop, .call, .ret, .jmp, .jeq, .jne, .st]

/-- The decoder compares the whole opcode byte with the seventeen values (30_encoding.md R64). -/
def decodeOpcode (op : Byte) : Option Opcode := Opcode.all.find? fun o => o.code == op

/-- The operand count is the opcode's top two bits, `opcode[7:6]` (30_encoding.md R61, R71). -/
def operandCount (op : Byte) : Nat := (op.extractLsb' 6 2).toNat

/-- The decoder's `pc_ctrl` output: the five PC-controlling instructions (30_encoding.md R63, 40_engine.md R94). -/
def Opcode.pcControlling : Opcode → Bool
  | .hlt | .ldi | .prn | .pra | .add | .mul | .inc | .dec | .cmp | .push | .pop | .st => false
  | .call | .ret | .jmp | .jeq | .jne => true

/-- The instruction of an opcode and its operand bytes, operand 1 first (30_encoding.md R67). Only the operands
the opcode has are looked at. -/
def Opcode.assemble (o : Opcode) (operands : List Byte) : Instr :=
  let b1 := operands.getD 0 0
  let b2 := operands.getD 1 0
  match o with
  | .hlt => .hlt
  | .ldi => .ldi b1 b2
  | .prn => .prn b1
  | .pra => .pra b1
  | .add => .add b1 b2
  | .mul => .mul b1 b2
  | .inc => .inc b1
  | .dec => .dec b1
  | .cmp => .cmp b1 b2
  | .push => .push b1
  | .pop => .pop b1
  | .call => .call b1
  | .ret => .ret
  | .jmp => .jmp b1
  | .jeq => .jeq b1
  | .jne => .jne b1
  | .st => .st b1 b2

/-- Read the bytes at the offsets `first`, `first + 1`, …, `count` of them, in order (40_engine.md R84). -/
def readOperands {ε : Type} (read : Nat → Except ε Byte) (first : Nat) : Nat → Except ε (List Byte)
  | 0 => .ok []
  | count + 1 =>
    match read first with
    | .error e => .error e
    | .ok b =>
      match readOperands read (first + 1) count with
      | .error e => .error e
      | .ok bs => .ok (b :: bs)

/-- Read the opcode byte, decode it, then read its operand bytes: the order of 40_engine.md R92. An illegal opcode
is reported before any operand is read (30_encoding.md R70). `read` gives the byte at an offset of the
instruction; the machine's fetch and `decode` differ only in it. -/
def decodeFrom {ε : Type} (read : Nat → Except ε Byte) (illegal : Byte → ε) : Except ε Instr :=
  match read 0 with
  | .error e => .error e
  | .ok op =>
    match decodeOpcode op with
    | none => .error (illegal op)
    | some o =>
      match readOperands read 1 (operandCount op) with
      | .error e => .error e
      | .ok operands => .ok (o.assemble operands)

/-- The byte at an offset of a list of bytes. -/
def byteAt (bytes : List Byte) (offset : Nat) : Except DecodeError Byte :=
  match bytes[offset]? with
  | some b => .ok b
  | none => .error (.missingByte offset)

/-- The instruction at the front of a list of bytes; total, and a rejection has a name. -/
def decode (bytes : List Byte) : Except DecodeError Instr := decodeFrom (byteAt bytes) .illegalOpcode

/-- The opcode of an instruction. -/
def Instr.opcode : Instr → Opcode
  | .hlt => .hlt
  | .ldi _ _ => .ldi
  | .prn _ => .prn
  | .pra _ => .pra
  | .add _ _ => .add
  | .mul _ _ => .mul
  | .inc _ => .inc
  | .dec _ => .dec
  | .cmp _ _ => .cmp
  | .push _ => .push
  | .pop _ => .pop
  | .call _ => .call
  | .ret => .ret
  | .jmp _ => .jmp
  | .jeq _ => .jeq
  | .jne _ => .jne
  | .st _ _ => .st

/-- The operand bytes of an instruction, operand 1 first (30_encoding.md R63, R67). -/
def Instr.operands : Instr → List Byte
  | .hlt => []
  | .ldi r imm => [r, imm]
  | .prn r => [r]
  | .pra r => [r]
  | .add rA rB => [rA, rB]
  | .mul rA rB => [rA, rB]
  | .inc r => [r]
  | .dec r => [r]
  | .cmp rA rB => [rA, rB]
  | .push r => [r]
  | .pop r => [r]
  | .call r => [r]
  | .ret => []
  | .jmp r => [r]
  | .jeq r => [r]
  | .jne r => [r]
  | .st rA rB => [rA, rB]

/-- The encoder: the opcode byte, then the operand bytes (30_encoding.md R60). -/
def encode (i : Instr) : List Byte := i.opcode.code :: i.operands

/-- An instruction's length in bytes, 1 to 3 (30_encoding.md R71). -/
def Instr.length (i : Instr) : Nat := 1 + i.operands.length

/-- The three bytes of a table word: bit 0 is the first byte's bit 0, a later byte's bits count on, and every bit
from `nbits` up is 0. -/
def tableBytes (nbits w : Nat) : List Byte :=
  let v := w % 2 ^ nbits
  [BitVec.ofNat 8 v, BitVec.ofNat 8 (v / 256), BitVec.ofNat 8 (v / 65536)]

/-- What the decoder reads from a word of the opcode table. -/
def decodeTableWord (nbits w : Nat) : Option Instr :=
  match decode (tableBytes nbits w) with
  | .ok i => some i
  | .error _ => none

end Sys2Proof
end

