-- ==== Sys2Proof/Machine/State.lean ====
section
/-! DEFINITION. The state of the machine (10_state.md), its value after reset (10_state.md R34), and the reasons a
step stops. -/

namespace Sys2Proof.Machine

/-- The three comparison flags E, L, G: separate booleans with no byte layout (10_state.md R25, R26). -/
structure Flags where
  /-- E -/
  equal : Bool
  /-- L -/
  lessThan : Bool
  /-- G -/
  greaterThan : Bool
  deriving DecidableEq, Repr

/-- The core status (10_state.md R27). -/
inductive Status where
  | idle | running | halted | faulted
  deriving DecidableEq, Repr

/-- The cause held in the fault record (60_exceptions.md R180). -/
inductive FaultCode where
  | none | illegalInstruction | addressFault | stackFault | unsupportedOperation
  deriving DecidableEq, Repr

/-- The kind of a console event: DEC for PRN, CHAR for PRA (60_exceptions.md R196). -/
inductive OutKind where
  | dec | char
  deriving DecidableEq, Repr

/-- One console event (60_exceptions.md R196). -/
structure OutEvent where
  kind : OutKind
  value : Byte
  deriving DecidableEq, Repr

/-- Memory: the cells that do not hold `Config.unlistedByte`, addresses strictly rising (log entry 12). -/
abbrev Memory := List Host.Cell

/-- Everything the spec gives the machine (10_state.md R34). -/
structure State where
  /-- The general registers; `x[7]` is the stack pointer (R20, R21). -/
  x : Vector Byte 8
  /-- E, L and G (R25). -/
  flags : Flags
  /-- The program counter, reachable 0..256 (R23). -/
  pc : PcWord
  /-- R27 -/
  status : Status
  /-- R28 -/
  faultCode : FaultCode
  /-- R28 -/
  faultPc : PcWord
  /-- R28 -/
  faultInfo : PcWord
  /-- The 256 cells (R30). -/
  mem : Memory
  /-- Console events emitted so far, oldest first (R33). -/
  out : List OutEvent
  deriving DecidableEq, Repr

/-- The machine right after reset (10_state.md R34, 70_reset_and_hazards.md R210): every value is the spec's. -/
def State.reset : State where
  x := #v[0, 0, 0, 0, 0, 0, 0, Config.spReset]
  flags := ⟨false, false, false⟩
  pc := Config.resetPc
  status := .idle
  faultCode := .none
  faultPc := 0
  faultInfo := 0
  mem := []
  out := []

/-- Why `step` answers no state. The spec's own faults are no `Fault`: fault entry is a next state with status
FAULTED (60_exceptions.md R185). -/
inductive Fault where
  /-- Raised by `step` alone, when the status is not RUNNING: "in IDLE, HALTED and FAULTED the core has no step"
  (40_engine.md R81, R91). Safe: no state follows that the hardware does not reach (log entry 2). -/
  | noStep (status : Status)
  deriving DecidableEq, Repr

/-- Why an instruction has no meaning. -/
inductive Refusal where
  /-- Raised by `exec` for an instruction rejected by name; no arm raises it. Safe. -/
  | notModelled (mnemonic : String)
  deriving DecidableEq, Repr

/-- What a check raises: a cause and the value that names what failed (00_scope.md R14, 60_exceptions.md R180). -/
structure Raised where
  code : FaultCode
  info : PcWord
  deriving DecidableEq, Repr

/-- How a handler ends: `Neutral` or `Transfer(t)` (00_scope.md R15). -/
inductive HandlerOutcome where
  | neutral
  | transfer (target : PcWord)
  deriving DecidableEq, Repr

/-- The outcome of a step of this machine. -/
abbrev Outcome := Host.Outcome State Fault Refusal

/-- A value, or the fault of the first check that failed (40_engine.md R88). -/
abbrev Raises (α : Type) := Except Raised α

end Sys2Proof.Machine
end

