-- ==== Sys2Proof/Machine/Flags.lean ====
section
/-! DEFINITION. The one flag computation of the machine: CMP's (43_alu.md R128, R129). -/

namespace Sys2Proof.Machine

/-- E, L and G of an unsigned comparison of `u` with `v` (43_alu.md R128). -/
def compareFlags (u v : Byte) : Flags where
  equal := decide (u.toNat = v.toNat)
  lessThan := decide (u.toNat < v.toNat)
  greaterThan := decide (u.toNat > v.toNat)

end Sys2Proof.Machine
end

