-- ==== Sys2Proof/Machine/Memory.lean ====
section
/-! DEFINITION. The 256-byte memory as a sorted list of cells: 20_memory.md R40, R43, R50. -/

namespace Sys2Proof.Machine

/-- The byte of a cell; an unlisted cell holds its reset value (20_memory.md R50). -/
def Memory.read : Memory → Nat → Byte
  | [], _ => Config.unlistedByte
  | (key, b) :: rest, a => if a = key then b else Memory.read rest a

/-- Set a cell, keeping the canonical form: a cell set to its reset value is taken out of the list. -/
def Memory.write : Memory → Nat → Byte → Memory
  | [], a, v => if v = Config.unlistedByte then [] else [(a, v)]
  | (key, b) :: rest, a, v =>
    if a < key then
      if v = Config.unlistedByte then (key, b) :: rest else (a, v) :: (key, b) :: rest
    else if a = key then
      if v = Config.unlistedByte then rest else (a, v) :: rest
    else (key, b) :: Memory.write rest a v

/-- The canonical form: addresses strictly rising, all below 256, no cell at its reset value. -/
abbrev Memory.wf (m : Memory) : Prop :=
  m.Pairwise (fun p q => p.1 < q.1) ∧ ∀ c ∈ m, c.1 < Config.memSize ∧ c.2 ≠ Config.unlistedByte

/-- Write bytes at rising addresses from `a`; an address above 255 has no cell and is left out. -/
def Memory.writeBytes : Memory → Nat → List Byte → Memory
  | m, _, [] => m
  | m, a, b :: rest => Memory.writeBytes (if a < Config.memSize then Memory.write m a b else m) (a + 1) rest

end Sys2Proof.Machine
end

