-- ==== Sys2Proof/Machine/Ops.lean ====
section
/-! DEFINITION. The shared operations: raising and taking a fault, registers, memory, console, and how the engine
ends an instruction (00_scope.md R12 to R15; 40_engine.md R89, R90; 60_exceptions.md R185). -/

namespace Sys2Proof.Machine

/-! ## The faults an instruction can raise (60_exceptions.md R180) -/

/-- `IllegalInstruction(op)` (R181). -/
def Raised.illegalInstruction (op : Byte) : Raised := ⟨.illegalInstruction, op.setWidth 9⟩

/-- `AddressFault(n)`: `n` is an address above 255 or a register byte above 7 (R182). -/
def Raised.addressFault (n : Nat) : Raised := ⟨.addressFault, BitVec.ofNat 9 n⟩

/-- `StackFault(x[7])` (R183). -/
def Raised.stackFault (sp : Byte) : Raised := ⟨.stackFault, sp.setWidth 9⟩

/-- `UnsupportedOperation(alu_op)` (R184). -/
def Raised.unsupportedOperation (aluOp : PcWord) : Raised := ⟨.unsupportedOperation, aluOp⟩

/-- Taking a fault: only the status and the fault record change (40_engine.md R89, 60_exceptions.md R185).
There is no return from a fault: only reset leaves FAULTED (60_exceptions.md R190; `State.hostReset`). -/
def State.takeFault (s : State) (f : Raised) : State :=
  { s with status := .faulted, faultCode := f.code, faultPc := s.pc, faultInfo := f.info }

/-! ## Registers, flags, console -/

/-- Read `x[i]`. -/
def State.reg (s : State) (i : Fin 8) : Byte := s.x[i]

/-- `x[i] <- v` (10_state.md R22). -/
def State.setReg (s : State) (i : Fin 8) (v : Byte) : State := { s with x := s.x.set i v }

/-- The stack pointer `x[7]` (10_state.md R21). -/
def State.sp (s : State) : Byte := s.reg Config.spIndex

/-- Set E, L and G together (43_alu.md R128). -/
def State.setFlags (s : State) (f : Flags) : State := { s with flags := f }

/-- `Emit(kind, v)`: append one event (60_exceptions.md R196). -/
def State.emit (s : State) (kind : OutKind) (v : Byte) : State := { s with out := s.out ++ [⟨kind, v⟩] }

/-- `status <- HALTED` (41_hlt_ldi.md R100). -/
def State.halt (s : State) : State := { s with status := .halted }

/-! ## Memory (00_scope.md R13) -/

/-- `MemRead(addr, 1)`: AddressFault outside 0..255. -/
def State.memRead (s : State) (a : Nat) : Raises Byte :=
  if a < Config.memSize then .ok (s.mem.read a) else .error (.addressFault a)

/-- `MemWrite(addr, 1, v)`: AddressFault outside 0..255. -/
def State.memWrite (s : State) (a : Nat) (v : Byte) : Raises State :=
  if a < Config.memSize then .ok { s with mem := s.mem.write a v } else .error (.addressFault a)

/-! ## The program counter -/

/-- A byte as a program-counter value (no extension of value: 00_scope.md R11). -/
def byteToPc (b : Byte) : PcWord := b.setWidth 9

/-- `pc + k`, the address `k` bytes on. Exact for every pc a run reaches (40_engine.md R90; log entry 4). -/
def State.pcPlus (s : State) (k : Nat) : PcWord := s.pc + BitVec.ofNat 9 k

/-- The PC update: `pc + 1 + n` after `Neutral`, `t` after `Transfer(t)` (40_engine.md R90). -/
def State.nextPc (s : State) (n : Nat) : HandlerOutcome → PcWord
  | .neutral => s.pcPlus (1 + n)
  | .transfer t => t

/-- How the engine ends an instruction of `n` operand bytes that began in `s` (40_engine.md R92): a raised fault is
taken in `s`, else the handler's writes stand and the pc is updated. -/
def State.complete (s : State) (n : Nat) : Raises (State × HandlerOutcome) → Outcome
  | .error f => .next (s.takeFault f)
  | .ok (t, outcome) => .next { t with pc := s.nextPc n outcome }

/-- What a step answers outside RUNNING, where the core has no step (40_engine.md R81, R91; log entry 2). -/
def State.noStep (s : State) : Outcome := .fault (.noStep s.status)

end Sys2Proof.Machine
end

