-- ==== Sys2Proof/Machine/Operands.lean ====
section
/-! DEFINITION. Operand forms: the register operand (30_encoding.md R65), the store's register-indirect address
(46_store.md R170) and the stack slots (44_stack.md R140, R141). The immediate is its byte (30_encoding.md R66). -/

namespace Sys2Proof.Machine

/-- The register-index check `RegIdx(b)` (40_engine.md R86). -/
def regIdx (b : Byte) : Raises (Fin 8) :=
  if h : b.toNat < Config.regCount then .ok ⟨b.toNat, h⟩ else .error (.addressFault b.toNat)

/-- The operand byte that names register `i`. -/
def regByte (i : Fin 8) : Byte := BitVec.ofNat 8 i

/-- The address ST stores to: `x[rA]`, no offset (46_store.md R170). -/
def State.storeAddress (s : State) (a : Fin 8) : Nat := (s.reg a).toNat

/-- The stack engine's answer to a push at stack pointer `sp`: the new stack pointer, which is the address written,
or StackFault when `sp` is 0 (44_stack.md R140, R141). -/
def pushSlot (sp : Byte) : Raises Byte :=
  if sp = 0 then .error (.stackFault sp) else .ok (sp - 1)

/-- The stack engine's answer to a pop at stack pointer `sp`: the new stack pointer, or StackFault when `sp` is at or
above the empty position; the address read is `sp` (44_stack.md R140, R141). -/
def popSlot (sp : Byte) : Raises Byte :=
  if Config.stackEmpty ≤ sp then .error (.stackFault sp) else .ok (sp + 1)

/-- `Push(v)` (44_stack.md R141). -/
def State.pushByte (s : State) (v : Byte) : Raises State := do
  let slot ← pushSlot s.sp
  let t ← s.memWrite slot.toNat v
  return t.setReg Config.spIndex slot

/-- `Pop()`: the byte at the top and the state with the stack pointer moved (44_stack.md R141). -/
def State.popByte (s : State) : Raises (Byte × State) := do
  let above ← popSlot s.sp
  let v ← s.memRead s.sp.toNat
  return (v, s.setReg Config.spIndex above)

end Sys2Proof.Machine
end

