-- ==== Sys2Proof/Machine/Alu.lean ====
section
/-! DEFINITION. The alu unit and the ALU family ADD, MUL, INC, DEC, CMP (43_alu.md; 40_engine.md R96). -/

namespace Sys2Proof.Machine

/-- The values of `alu_op` (40_engine.md R94, R96). The spec numbers none of them: `other` carries the raw value of any
that is none of the five kinds (log entry 5). -/
inductive AluOp where
  | add | mul | inc | dec | cmp
  | other (raw : PcWord)
  deriving DecidableEq, Repr

/-- The alu's outputs: `result` when a register is written, `flags` when `flags_we` is 1 (43_alu.md R130). -/
structure AluOut where
  result : Option Byte
  flags : Option Flags
  deriving DecidableEq, Repr

/-- The alu's function (43_alu.md R130): exact results reduced modulo 256, UnsupportedOperation for any other kind. -/
def alu (op : AluOp) (a b : Byte) : Raises AluOut :=
  match op with
  | .add => .ok ⟨some (BitVec.ofNat 8 (a.toNat + b.toNat)), none⟩
  | .mul => .ok ⟨some (BitVec.ofNat 8 (a.toNat * b.toNat)), none⟩
  | .inc => .ok ⟨some (BitVec.ofNat 8 (a.toNat + 1)), none⟩
  | .dec => .ok ⟨some (BitVec.ofNat 8 (a.toNat + 255)), none⟩
  | .cmp => .ok ⟨none, some (compareFlags a b)⟩
  | .other raw => .error (.unsupportedOperation raw)

/-- The decoder's `alu_op` output: one of the five kinds for the ALU instructions, none otherwise (40_engine.md R94). -/
def decodedAluOp : Opcode → Option AluOp
  | .add => some .add
  | .mul => some .mul
  | .inc => some .inc
  | .dec => some .dec
  | .cmp => some .cmp
  | .hlt | .ldi | .prn | .pra | .push | .pop | .call | .ret | .jmp | .jeq | .jne | .st => none

/-- Write the alu's outputs back: the destination register, the flags, or neither (40_engine.md R95). -/
def State.aluWriteBack (s : State) (dest : Fin 8) (o : AluOut) : State :=
  let t := match o.result with
    | some v => s.setReg dest v
    | none => s
  match o.flags with
  | some f => t.setFlags f
  | none => t

/-- The handler of a two-operand ALU instruction: check operand 1, then operand 2, read both, write back. -/
def aluBinary (op : AluOp) (rA rB : Byte) (s : State) : Raises (State × HandlerOutcome) := do
  let a ← regIdx rA
  let c ← regIdx rB
  let o ← alu op (s.reg a) (s.reg c)
  return (s.aluWriteBack a o, .neutral)

/-- The handler of a one-operand ALU instruction; the alu's second input is ignored (43_alu.md R125). -/
def aluUnary (op : AluOp) (r : Byte) (s : State) : Raises (State × HandlerOutcome) := do
  let i ← regIdx r
  let o ← alu op (s.reg i) 0
  return (s.aluWriteBack i o, .neutral)

/-- ADD (43_alu.md R120). -/
def execAdd (rA rB : Byte) (s : State) : Outcome := s.complete 2 (aluBinary .add rA rB s)

/-- MUL (43_alu.md R122). -/
def execMul (rA rB : Byte) (s : State) : Outcome := s.complete 2 (aluBinary .mul rA rB s)

/-- INC (43_alu.md R124). -/
def execInc (r : Byte) (s : State) : Outcome := s.complete 1 (aluUnary .inc r s)

/-- DEC (43_alu.md R126, R127). -/
def execDec (r : Byte) (s : State) : Outcome := s.complete 1 (aluUnary .dec r s)

/-- CMP (43_alu.md R128). -/
def execCmp (rA rB : Byte) (s : State) : Outcome := s.complete 2 (aluBinary .cmp rA rB s)

end Sys2Proof.Machine
end

