-- ==== Sys2Proof/Machine/Basic.lean ====
section
/-! DEFINITION. HLT and LDI (41_hlt_ldi.md). -/

namespace Sys2Proof.Machine

/-- HLT (41_hlt_ldi.md R100, R101). -/
def execHlt (s : State) : Outcome := s.complete 0 (.ok (s.halt, .neutral))

/-- LDI (41_hlt_ldi.md R102). -/
def execLdi (r imm : Byte) (s : State) : Outcome :=
  s.complete 2 do
    let i ← regIdx r
    return (s.setReg i imm, .neutral)

end Sys2Proof.Machine
end

