-- ==== Sys2Proof/Machine/ControlFlow.lean ====
section
/-! DEFINITION. CALL, RET, JMP, JEQ, JNE (45_control_flow.md). -/

namespace Sys2Proof.Machine

/-- The byte CALL pushes: the address after it, AddressFault when that is above 255 (45_control_flow.md R150). -/
def State.returnAddress (s : State) : Raises Byte :=
  if s.pc.toNat + 2 < Config.memSize then .ok (BitVec.ofNat 8 (s.pc.toNat + 2))
  else .error (.addressFault (s.pc.toNat + 2))

/-- CALL: the target is read before the push (45_control_flow.md R150, 40_engine.md R87). -/
def execCall (r : Byte) (s : State) : Outcome :=
  s.complete 1 do
    let i ← regIdx r
    let back ← s.returnAddress
    let t ← s.pushByte back
    return (t, .transfer (byteToPc (s.reg i)))

/-- RET (45_control_flow.md R152). -/
def execRet (s : State) : Outcome :=
  s.complete 0 do
    let (target, t) ← s.popByte
    return (t, .transfer (byteToPc target))

/-- The handler of the jumps: the operand is checked whether or not the jump is taken, and a jump not taken
transfers to `pc + 2` (45_control_flow.md R155, R156, R158). -/
def jumpIf (taken : Bool) (r : Byte) (s : State) : Raises (State × HandlerOutcome) := do
  let i ← regIdx r
  return (s, .transfer (if taken then byteToPc (s.reg i) else s.pcPlus 2))

/-- JMP (45_control_flow.md R154). -/
def execJmp (r : Byte) (s : State) : Outcome := s.complete 1 (jumpIf true r s)

/-- JEQ (45_control_flow.md R156). -/
def execJeq (r : Byte) (s : State) : Outcome := s.complete 1 (jumpIf s.flags.equal r s)

/-- JNE (45_control_flow.md R158). -/
def execJne (r : Byte) (s : State) : Outcome := s.complete 1 (jumpIf (!s.flags.equal) r s)

end Sys2Proof.Machine
end

