-- ==== Sys2Proof/Machine/Output.lean ====
section
/-! DEFINITION. PRN and PRA (42_output.md). -/

namespace Sys2Proof.Machine

/-- The handler of both: one console event with the register's byte (60_exceptions.md R196). -/
def printReg (kind : OutKind) (r : Byte) (s : State) : Raises (State × HandlerOutcome) := do
  let i ← regIdx r
  return (s.emit kind (s.reg i), .neutral)

/-- PRN (42_output.md R110). -/
def execPrn (r : Byte) (s : State) : Outcome := s.complete 1 (printReg .dec r s)

/-- PRA (42_output.md R112). -/
def execPra (r : Byte) (s : State) : Outcome := s.complete 1 (printReg .char r s)

end Sys2Proof.Machine
end

