-- ==== Sys2Proof/Machine/Stack.lean ====
section
/-! DEFINITION. PUSH and POP (44_stack.md). -/

namespace Sys2Proof.Machine

/-- PUSH: the register is read before the push (44_stack.md R142, 40_engine.md R87). -/
def execPush (r : Byte) (s : State) : Outcome :=
  s.complete 1 do
    let i ← regIdx r
    let t ← s.pushByte (s.reg i)
    return (t, .neutral)

/-- POP: the destination is written after the stack pointer (44_stack.md R144, 40_engine.md R88). -/
def execPop (r : Byte) (s : State) : Outcome :=
  s.complete 1 do
    let i ← regIdx r
    let (v, t) ← s.popByte
    return (t.setReg i v, .neutral)

end Sys2Proof.Machine
end

