-- ==== Sys2Proof/Machine/Store.lean ====
section
/-! DEFINITION. ST (46_store.md). -/

namespace Sys2Proof.Machine

/-- ST: the whole byte of `x[rB]` to the address `x[rA]` (46_store.md R170, R171). -/
def execSt (rA rB : Byte) (s : State) : Outcome :=
  s.complete 2 do
    let a ← regIdx rA
    let c ← regIdx rB
    let t ← s.memWrite (s.storeAddress a) (s.reg c)
    return (t, .neutral)

end Sys2Proof.Machine
end

