-- ==== Sys2Proof/Machine/Fetch.lean ====
section
/-! DEFINITION. fetch_unit and decoder at work on the memory, and what comes before exec in a step
(40_engine.md R81 to R84, R91 to R94). -/

namespace Sys2Proof.Machine

/-- Fetch and decode at `pc` (40_engine.md R82 to R84): the byte at offset `i` is read at the exact address `pc + i`,
so an address above 255 is an AddressFault and nothing wraps. -/
def State.fetchInstr (s : State) : Raises Instr :=
  decodeFrom (fun i => s.memRead (s.pc.toNat + i)) .illegalInstruction

/-- The instruction this step executes; or, where the step ends before one executes, the step's outcome: a fetch or
decode fault is taken (40_engine.md R89), and outside RUNNING there is no step (R81, R91). -/
def State.nextInstr (s : State) : Except Outcome Instr :=
  match s.status with
  | .running =>
    match s.fetchInstr with
    | .ok i => .ok i
    | .error f => .error (.next (s.takeFault f))
  | .idle => .error s.noStep
  | .halted => .error s.noStep
  | .faulted => .error s.noStep

/-- The bytes at `pc`, `pc + 1`, `pc + 2`; a position above 255 has no byte (60_exceptions.md R198). -/
def State.traceBytes (s : State) : List (Option Byte) :=
  [0, 1, 2].map fun i => if s.pc.toNat + i < Config.memSize then some (s.mem.read (s.pc.toNat + i)) else none

/-- Those bytes that are there. -/
def State.bytesAtPc (s : State) : List Byte := s.traceBytes.filterMap id

/-- Place instruction bytes at `pc` and have the core RUNNING: a load and a start in one (70_reset_and_hazards.md R212,
R213; log entry 3). -/
def State.placeAtPc (s : State) (bytes : List Byte) : State :=
  { s with mem := s.mem.writeBytes s.pc.toNat bytes, status := .running }

end Sys2Proof.Machine
end

