-- ==== Sys2Proof/Machine/Step.lean ====
section
/-! DEFINITION. One step of the machine (40_engine.md R81, R92). -/

namespace Sys2Proof.Machine

/-- The whole step: fetch and decode, then the instruction (40_engine.md R92). -/
def step (s : State) : Host.Outcome State Fault Refusal :=
  match s.nextInstr with
  | .ok i => exec i s
  | .error o => o

/-- `s` with the instruction of a table word stored where `step` fetches next, and the core RUNNING: what a load and
a start do for a program (70_reset_and_hazards.md R212, R213; log entry 3). -/
def State.withFetchWord (s : State) (nbits w : Nat) : State := s.placeAtPc (tableBytes nbits w)

end Sys2Proof.Machine
end

