-- ==== Sys2Proof/Machine/HostPort.lean ====
section
/-! DEFINITION. The core's interfaces to the host: control in, load port and Loader, status out, console port, debug
view (40_engine.md R80; 60_exceptions.md R196, R198, R200; 70_reset_and_hazards.md R210 to R215; 30_encoding.md R75). -/

namespace Sys2Proof.Machine

/-! ## Control in and the load port -/

/-- `reset`, at any time: every piece of state to its reset value, memory and console output included
(70_reset_and_hazards.md R210, 60_exceptions.md R200). -/
def State.hostReset (_ : State) : State := .reset

/-- The load port writes an image of at most 256 bytes at 0, 1, 2, … while the status is IDLE
(70_reset_and_hazards.md R212). No other load is described, and the model answers none
(60_exceptions.md R200; log entry 3). -/
def State.hostLoad (s : State) (image : List Byte) : Option State :=
  if s.status = .idle ∧ image.length ≤ Config.memSize then
    some { s with mem := s.mem.writeBytes Config.loadBase image }
  else none

/-- `start`: IDLE to RUNNING, and nothing in any other status (70_reset_and_hazards.md R213). -/
def State.hostStart (s : State) : State :=
  match s.status with
  | .idle => { s with status := .running }
  | .running => s
  | .halted => s
  | .faulted => s

/-! ## The Loader's text format (30_encoding.md R75) -/

/-- Why the Loader reports a load failure (30_encoding.md R75, 60_exceptions.md R186). The spec has one LoadFailure
and names no causes: naming them is the model's choice (DESIGN CHOICE, log entry 19). -/
inductive LoadFailure where
  /-- The source is missing or unreadable. -/
  | missingSource
  /-- A base-2 token exceeds 255 (D25). -/
  | tokenAbove255
  /-- The image has more than 256 bytes (D25). -/
  | imageAbove256
  deriving DecidableEq, Repr

/-- The whitespace-separated tokens of a text; `current` is the token being read, last character first. -/
def loaderTokens : List Char → List Char → List (List Char)
  | current, [] => if current.isEmpty then [] else [current.reverse]
  | current, c :: rest =>
    if c.isWhitespace then
      if current.isEmpty then loaderTokens [] rest else current.reverse :: loaderTokens [] rest
    else loaderTokens (c :: current) rest

/-- The value of a base-2 token: one or more of the digits 0 and 1, and nothing else (log entry 6). -/
def loaderTokenValue (token : List Char) : Option Nat :=
  if !token.isEmpty && token.all (fun c => c == '0' || c == '1') then
    some (token.foldl (fun v c => 2 * v + (if c == '1' then 1 else 0)) 0)
  else none

/-- The image a source text stands for, or why it does not load. Tokens that are not base-2 are skipped. A source with
both a token above 255 and more than 256 bytes is reported as tokenAbove255: the spec gives the causes no order
(DESIGN CHOICE, log entry 19). -/
def loaderImage (source : Option (List Char)) : Except LoadFailure (List Byte) :=
  match source with
  | none => .error .missingSource
  | some text =>
    let values := (loaderTokens [] text).filterMap loaderTokenValue
    if values.any (fun v => decide (255 < v)) then .error .tokenAbove255
    else if Config.memSize < values.length then .error .imageAbove256
    else .ok (values.map (BitVec.ofNat 8))

/-- The boot order reset, load, start (70_reset_and_hazards.md R215). After a load failure the host does not assert
start and the core stays IDLE (R213, 60_exceptions.md R186). Memory is then unpopulated, all 0: so says 30_encoding.md
R75 of a missing or unreadable source; for a token above 255 or an image above 256 bytes the spec does not say what
memory holds, and the model takes the same (DESIGN CHOICE, log entry 20). -/
def State.hostBoot (s : State) (source : Option (List Char)) : State × Option LoadFailure :=
  match loaderImage source with
  | .error e => (s.hostReset, some e)
  | .ok image =>
    match s.hostReset.hostLoad image with
    | some loaded => (loaded.hostStart, none)
    | none => (s.hostReset, some .imageAbove256)

/-! ## Status out -/

/-- The encoding of `status[1:0]` (40_engine.md R80). -/
def Status.bits : Status → BitVec 2
  | .idle => 0
  | .running => 1
  | .halted => 2
  | .faulted => 3

/-- The encoding of `fault_code[2:0]` (60_exceptions.md R180). -/
def FaultCode.bits : FaultCode → BitVec 3
  | .none => 0
  | .illegalInstruction => 1
  | .addressFault => 2
  | .stackFault => 3
  | .unsupportedOperation => 4

/-- The status outputs (40_engine.md R80). -/
structure StatusOut where
  status : BitVec 2
  faultCode : BitVec 3
  faultPc : BitVec 9
  faultInfo : BitVec 9
  deriving DecidableEq, Repr

/-- The status outputs of a state. -/
def State.statusOut (s : State) : StatusOut := ⟨s.status.bits, s.faultCode.bits, s.faultPc, s.faultInfo⟩

/-- The running flag of the source (10_state.md R27). -/
def State.runningFlag (s : State) : Bool := decide (s.status = .running)

/-! ## Console port -/

/-- `out_kind`: 0 for DEC, 1 for CHAR (40_engine.md R80). -/
def OutKind.bits : OutKind → BitVec 1
  | .dec => 0
  | .char => 1

/-- The console port's signals in one step (40_engine.md R80). The spec says nothing of `out_kind` and `out_data` while
`out_valid` is 0: the model gives them no value then, `none` (DESIGN CHOICE, log entry 18). -/
structure ConsolePort where
  valid : Bool
  kind : Option (BitVec 1)
  data : Option Byte
  deriving DecidableEq, Repr

/-- The console port in a step from `s` to `t`: the one event the step appended, if any (60_exceptions.md R196). With
no event `out_kind` and `out_data` are `none`, the model's choice (DESIGN CHOICE, log entry 18). -/
def consolePort (s t : State) : ConsolePort :=
  match t.out.drop s.out.length with
  | [] => ⟨false, none, none⟩
  | e :: _ => ⟨true, some e.kind.bits, some e.value⟩

/-! ## Debug view and trace -/

/-- The debug view: `dbg_pc`, `dbg_x0` to `dbg_x7` (40_engine.md R80). -/
structure DebugView where
  pc : PcWord
  x : Vector Byte 8
  deriving DecidableEq, Repr

/-- The debug view of a state. -/
def State.debugView (s : State) : DebugView := ⟨s.pc, s.x⟩

/-- The content of a debug trace; its text format is not given (60_exceptions.md R198; log entry 16). -/
structure DebugTrace where
  view : DebugView
  bytes : List (Option Byte)
  deriving DecidableEq, Repr

/-- The debug trace of a state: a read that changes nothing; a position above 255 is absent (60_exceptions.md R198). -/
def State.debugTrace (s : State) : DebugTrace := ⟨s.debugView, s.traceBytes⟩

end Sys2Proof.Machine
end

