-- ==== Sys2Proof/Safety.lean ====
section
/-! DEFINITION. What a run is held to: how it ends, the invariant every step keeps, what an instruction may write, the
priority of faults, and what the engine never reads. -/

namespace Sys2Proof.Machine

/-! ## The end of a run (70_reset_and_hazards.md R216, R217) -/

/-- A run has ended when the status has left RUNNING for HALTED or FAULTED. -/
abbrev State.ended (s : State) : Prop := s.status = .halted ∨ s.status = .faulted

/-- A run has succeeded only when it ended HALTED (70_reset_and_hazards.md R217). -/
abbrev State.succeeded (s : State) : Prop := s.status = .halted

/-! ## The invariant -/

/-- At most one flag is set: none before the first CMP, exactly one after it (10_state.md R26). -/
abbrev Flags.atMostOne (f : Flags) : Prop :=
  ¬(f.equal ∧ f.lessThan) ∧ ¬(f.equal ∧ f.greaterThan) ∧ ¬(f.lessThan ∧ f.greaterThan)

/-- The fault record of a FAULTED state names something the state shows (60_exceptions.md R180 to R184). -/
def State.faultExplained (s : State) : Prop :=
  match s.faultCode with
  | .none => False
  | .illegalInstruction =>
    s.pc.toNat < Config.memSize ∧ decodeOpcode (s.mem.read s.pc.toNat) = none ∧
      s.faultInfo = (s.mem.read s.pc.toNat).setWidth 9
  | .addressFault => 8 ≤ s.faultInfo.toNat ∧ s.faultInfo.toNat ≤ 258
  | .stackFault => s.faultInfo = s.sp.setWidth 9 ∧ (s.sp = 0 ∨ Config.stackEmpty ≤ s.sp)
  | .unsupportedOperation => False

/-- What every state of a run satisfies. -/
structure State.Inv (s : State) : Prop where
  /-- Memory is in its canonical form (log entry 12). -/
  memory : s.mem.wf
  /-- The program counter is 0..256 (10_state.md R23). -/
  pcRange : s.pc.toNat ≤ 256
  /-- 10_state.md R26 -/
  flags : s.flags.atMostOne
  /-- The fault record is clear unless the status is FAULTED (10_state.md R28, 60_exceptions.md R180). -/
  recordClear : s.status ≠ .faulted → s.faultCode = .none ∧ s.faultPc = 0 ∧ s.faultInfo = 0
  /-- In FAULTED it names the faulting instruction's address and an actual failure (60_exceptions.md R185). -/
  recordTrue : s.status = .faulted → s.faultPc = s.pc ∧ s.faultExplained

end Sys2Proof.Machine

namespace Sys2Proof

open Machine

/-! ## What an instruction may write -/

/-- The registers an instruction writes, as operand bytes: the table of 10_state.md R22. -/
def Instr.writtenRegs : Instr → List Byte
  | .hlt => []
  | .ldi r _ => [r]
  | .prn _ => []
  | .pra _ => []
  | .add rA _ => [rA]
  | .mul rA _ => [rA]
  | .inc r => [r]
  | .dec r => [r]
  | .cmp _ _ => []
  | .push _ => [7]
  | .pop r => [7, r]
  | .call _ => [7]
  | .ret => [7]
  | .jmp _ => []
  | .jeq _ => []
  | .jne _ => []
  | .st _ _ => []

/-- The console events an instruction emits in a state when it completes (42_output.md R110, R112). -/
def Instr.events (i : Instr) (s : State) : List OutEvent :=
  match i with
  | .prn r => [⟨.dec, s.reg (Fin.ofNat 8 r.toNat)⟩]
  | .pra r => [⟨.char, s.reg (Fin.ofNat 8 r.toNat)⟩]
  | .hlt | .ldi _ _ | .add _ _ | .mul _ _ | .inc _ | .dec _ | .cmp _ _ | .push _ | .pop _ | .call _ | .ret | .jmp _
  | .jeq _ | .jne _ | .st _ _ => []

/-- The target of a PC-controlling instruction (45_control_flow.md R150 to R158); `pc` for the others, which have
none. -/
def Instr.target (i : Instr) (s : State) : PcWord :=
  match i with
  | .call r => byteToPc (s.reg (Fin.ofNat 8 r.toNat))
  | .ret => byteToPc (s.mem.read s.sp.toNat)
  | .jmp r => byteToPc (s.reg (Fin.ofNat 8 r.toNat))
  | .jeq r => if s.flags.equal then byteToPc (s.reg (Fin.ofNat 8 r.toNat)) else s.pc + 2
  | .jne r => if s.flags.equal then s.pc + 2 else byteToPc (s.reg (Fin.ofNat 8 r.toNat))
  | .hlt | .ldi _ _ | .prn _ | .pra _ | .add _ _ | .mul _ _ | .inc _ | .dec _ | .cmp _ _ | .push _ | .pop _
  | .st _ _ => s.pc

end Sys2Proof

namespace Sys2Proof.Machine

/-! ## The priority of faults -/

/-- The checks that follow operand fetch, in order: register operands, CALL's return address, the stack bound
(60_exceptions.md R187, items 4 to 6). -/
def State.instrFault (s : State) (i : Instr) : Option Raised :=
  match i.regOperands.find? (fun b => decide (7 < b.toNat)) with
  | some b => some (.addressFault b.toNat)
  | none =>
    if i.opcode = .call ∧ 255 < s.pc.toNat + 2 then some (.addressFault (s.pc.toNat + 2))
    else if (i.opcode = .push ∨ i.opcode = .call) ∧ s.sp.toNat = 0 then some (.stackFault s.sp)
    else if (i.opcode = .pop ∨ i.opcode = .ret) ∧ 244 ≤ s.sp.toNat then some (.stackFault s.sp)
    else none

/-- The fault a step of a RUNNING core reports: the first check that fails, in the order of 60_exceptions.md R187;
none when no check fails. -/
def State.firstFault (s : State) : Option Raised :=
  let pc := s.pc.toNat
  if 255 < pc then some (.addressFault pc)
  else
    let op := s.mem.read pc
    match decodeOpcode op with
    | none => some (.illegalInstruction op)
    | some o =>
      if 1 ≤ operandCount op ∧ 255 < pc + 1 then some (.addressFault (pc + 1))
      else if 2 ≤ operandCount op ∧ 255 < pc + 2 then some (.addressFault (pc + 2))
      else s.instrFault (o.assemble [s.mem.read (pc + 1), s.mem.read (pc + 2)])

/-! ## What the engine reads -/

/-- Two states agree on everything an instruction can read: the registers, E, pc, status and memory. L and G, the
fault record and the console output may differ (10_state.md R25; 60_exceptions.md R198). -/
structure State.agree (s t : State) : Prop where
  x : s.x = t.x
  equal : s.flags.equal = t.flags.equal
  pc : s.pc = t.pc
  status : s.status = t.status
  mem : s.mem = t.mem

/-! ## Instructions one after another -/

/-- Execute instructions in order, each from the state the one before it left, as long as the core is RUNNING. -/
def execAll : List Instr → State → Outcome
  | [], s => .next s
  | i :: rest, s =>
    match s.status with
    | .running =>
      match exec i s with
      | .next t => execAll rest t
      | .fault r => .fault r
      | .refused r => .refused r
    | .idle => s.noStep
    | .halted => s.noStep
    | .faulted => s.noStep

end Sys2Proof.Machine
end

