-- ==== Sys2Proof/Certificates/Slice0/Obligations.lean ====
section
/-! DEFINITION. The statements for the provers. -/

open Sys2Proof Sys2Proof.Machine

/-! ## Encoding -/

/-- Decoding an instruction's encoding, whatever bytes follow it, gives the instruction back, every operand byte at
every value (30_encoding.md sections 1 to 3). Rests on the spec's opcode assignment D1. -/
def Obligations.DecodeEncodeRoundTrip : Prop :=
  ∀ (i : Instr) (rest : List Byte), decode (encode i ++ rest) = .ok i

/-- Whatever bytes decode to an instruction begin with exactly its encoding (30_encoding.md sections 1 to 3). -/
def Obligations.DecodedBytesAreTheEncoding : Prop :=
  ∀ (bytes : List Byte) (i : Instr), decode bytes = .ok i → ∃ rest, bytes = encode i ++ rest

/-- Words written out from the table and worked encodings of the spec (30_encoding.md sections 2 and 6), one or more of
each family, decode to the instruction they stand for. Rests on the spec's opcode assignment D1. -/
def Obligations.SpecWordsDecode : Prop :=
  decode [0x01] = .ok .hlt ∧ decode [0x82, 0x00, 0x05] = .ok (.ldi 0 5) ∧ decode [0x48, 0x02] = .ok (.pra 2) ∧
    decode [0xA0, 0x00, 0x01] = .ok (.add 0 1) ∧ decode [0xA7, 0x01, 0x02] = .ok (.cmp 1 2) ∧
    decode [0x66, 0x08] = .ok (.dec 8) ∧ decode [0x45, 0x07] = .ok (.push 7) ∧ decode [0x11] = .ok .ret ∧
    decode [0x55, 0x01] = .ok (.jeq 1) ∧ decode [0x84, 0x00, 0x01] = .ok (.st 0 1) ∧
    decode [0x00] = .error (.illegalOpcode 0x00) ∧ decode [0x47] = .error (.missingByte 1)

/-- The decoder matches the whole opcode byte: a byte decodes to a mnemonic exactly when it is that mnemonic's byte, the
mnemonics' bytes differ, and every byte with both top bits set is illegal (30_encoding.md section 2).
Rests on the spec's opcode assignment D1. -/
def Obligations.OpcodeByteMatchedWhole : Prop :=
  (∀ (op : Byte) (o : Opcode), decodeOpcode op = some o ↔ o.code = op) ∧
    (∀ o o' : Opcode, o.code = o'.code → o = o') ∧
    ∀ op : Byte, 192 ≤ op.toNat → decodeOpcode op = none

/-- The operand count is the opcode byte's top two bits, `opcode[7:6]`, and the length is one more (30_encoding.md
sections 1 and 5). -/
def Obligations.OperandCountFromTopTwoBits : Prop :=
  ∀ i : Instr, i.operands.length = i.opcode.code.toNat / 64 ∧ (encode i).length = 1 + i.opcode.code.toNat / 64

/-! ## Reset, load, start -/

/-- Every reset value (10_state.md section 8). -/
def Obligations.ResetValues : Prop :=
  (∀ i : Fin 8, State.reset.x[i] = if i = 7 then 0xF4 else 0) ∧
    State.reset.flags = ⟨false, false, false⟩ ∧ State.reset.pc = 0 ∧ State.reset.status = .idle ∧
    State.reset.faultCode = .none ∧ State.reset.faultPc = 0 ∧ State.reset.faultInfo = 0 ∧
    (∀ a, State.reset.mem.read a = 0) ∧ State.reset.out = []

/-- While IDLE the load port writes the image sequentially from address 0 and changes nothing else, so every later cell keeps
what it held, and after reset stays 0 (70_reset_and_hazards.md section 2). The bound of 256 bytes is decision D25 (log entry 3);
that the loaded memory keeps its canonical form (wf) is about the model's own choice of that form (log entry 12). -/
def Obligations.LoadWritesImageFromZero : Prop :=
  (∀ (s : State) (image : List Byte), s.mem.wf → s.status = .idle → image.length ≤ 256 →
    ∃ t, s.hostLoad image = some t ∧ t = { s with mem := t.mem } ∧ t.mem.wf ∧
      (∀ a, (h : a < image.length) → t.mem.read a = image[a]) ∧
      ∀ a, image.length ≤ a → t.mem.read a = s.mem.read a) ∧
  ∀ (image : List Byte) (t : State), State.reset.hostLoad image = some t →
    ∀ a, image.length ≤ a → t.mem.read a = 0

/-- `start` takes an IDLE core to RUNNING and changes nothing else; in any other status it does nothing
(70_reset_and_hazards.md section 2, decision D19). Outside IDLE, and for an image of more than 256 bytes (decision D25), there
is no load, which the model says by none (log entry 3). -/
def Obligations.StartAndLoadOnlyFromIdle : Prop :=
  (∀ s : State, (s.status = .idle → s.hostStart = { s with status := .running }) ∧
    (s.status ≠ .idle → s.hostStart = s)) ∧
  ∀ (s : State) (image : List Byte), s.status ≠ .idle ∨ 256 < image.length → s.hostLoad image = none

/-- Reset, load, start: after them the core is RUNNING at pc 0 over the image, everything else at its reset value; after
a load failure it is IDLE with its memory unpopulated (70_reset_and_hazards.md section 2). The Loader's reading of a
base-2 token, the causes a load failure names, and that memory is all 0 after a load failure for a token above 255 or an image
above 256 bytes, are the model's choices (log entries 6, 19 and 20). -/
def Obligations.BootOrderRunsTheImage : Prop :=
  ∀ (s : State) (source : Option (List Char)),
    (∀ image, loaderImage source = .ok image →
      ∃ t, s.hostBoot source = (t, none) ∧ t = { State.reset with mem := t.mem, status := .running } ∧
        ∀ a, t.mem.read a = image.getD a 0) ∧
    ∀ e, loaderImage source = .error e → s.hostBoot source = (State.reset, some e)

/-- The Loader's format: the worked encoding of LDI R0, 5 as three lines with a comment, a token above 255, and a missing
source (30_encoding.md section 6). The reading of a base-2 token, and the causes a load failure
names, are the model's choices (log entries 6 and 19). -/
def Obligations.LoaderReadsBaseTwoTokens : Prop :=
  loaderImage (some ['1', '0', '0', '0', '0', '0', '1', '0', ' ', '#', ' ', 'L', 'D', 'I', '\n', '0', '\n', '1', '0', '1']) =
      .ok [0x82, 0x00, 0x05] ∧
    loaderImage (some ['1', '0', '0', '0', '0', '0', '0', '0', '0']) = .error .tokenAbove255 ∧
    loaderImage (some ['0', '1', '1', '1', '1', '1', '1', '1', '1']) = .ok [0xFF] ∧
    loaderImage none = .error .missingSource

/-! ## The step -/

/-- A RUNNING core whose bytes at pc decode to an instruction executes exactly that instruction in this step; the step adds
nothing around it, and the instruction's own meaning updates the pc (40_engine.md section 2). -/
def Obligations.StepRunsTheDecodedInstruction : Prop :=
  ∀ (s : State) (i : Instr), s.status = .running → decode s.bytesAtPc = .ok i → step s = exec i s

/-- Outside RUNNING there is no step (40_engine.md section 2). That the model answers it by a named fault is its own choice
(log entry 2). -/
def Obligations.NoStepOutsideRunning : Prop :=
  ∀ s : State, s.status ≠ .running → step s = .fault (.noStep s.status)

/-- An opcode fetch above address 255 raises AddressFault(pc) (40_engine.md section 2, decision D10). -/
def Obligations.OpcodeFetchPastTheTop : Prop :=
  ∀ s : State, s.status = .running → 255 < s.pc.toNat → step s = .next (s.takeFault ⟨.addressFault, s.pc⟩)

/-- An opcode byte outside the table is a fatal IllegalInstruction, raised before any operand is fetched (so
also at address 255); no output beyond what was already emitted, and no step after it. 0x00 is such a byte (R181). -/
def Obligations.IllegalOpcodeStops : Prop :=
  (∀ s : State, s.status = .running → s.pc.toNat ≤ 255 → decodeOpcode (s.mem.read s.pc.toNat) = none →
    ∃ t, step s = .next t ∧ t.status = .faulted ∧ t.faultCode = .illegalInstruction ∧ t.out = s.out ∧
      ∀ u, step t ≠ .next u) ∧
  decodeOpcode 0x00 = none

/-- Operand fetch (R84): the n operand bytes are read from pc+1, … in order before the handler runs, so the instruction is
fixed by the memory before it executes; the first one above address 255 raises AddressFault with its address.What a raise
does to the state is 00_scope.md R14. -/
def Obligations.OperandFetchInOrder : Prop :=
  ∀ (s : State) (o : Opcode), s.status = .running → s.pc.toNat ≤ 255 →
    decodeOpcode (s.mem.read s.pc.toNat) = some o →
    (s.pc.toNat + operandCount o.code ≤ 255 →
      step s = exec (o.assemble ((List.range (operandCount o.code)).map fun k => s.mem.read (s.pc.toNat + 1 + k))) s) ∧
    ∀ k, 1 ≤ k → k ≤ operandCount o.code → s.pc.toNat + (k - 1) ≤ 255 → 255 < s.pc.toNat + k →
      step s = .next (s.takeFault ⟨.addressFault, BitVec.ofNat 9 (s.pc.toNat + k)⟩)

/-- The two ways an instruction ends (R15): PC-neutral instructions move the pc to the exact pc+1+n, PC-controlling ones set
it to their target. -/
def Obligations.PcUpdateNeutralOrTransfer : Prop :=
  ∀ (s t : State) (i : Instr), s.status = .running → decode s.bytesAtPc = .ok i → step s = .next t →
    t.status ≠ .faulted →
    (i.opcode.pcControlling = false → t.pc.toNat = s.pc.toNat + 1 + i.operands.length) ∧
    (i.opcode.pcControlling = true → t.pc = i.target s)

/-! ## What each instruction does -/

/-- HLT is PC-neutral and enters HALTED, which is terminal; only HLT and a fault leave RUNNING (R101). -/
def Obligations.HltHaltsForGood : Prop :=
  (∀ s : State, exec .hlt s = .next { s with status := .halted, pc := s.pc + 1 }) ∧
    (∀ s t : State, exec .hlt s = .next t → t.runningFlag = false) ∧
    (∀ s t : State, s.status = .halted → step s ≠ .next t) ∧
    ∀ s t : State, s.status = .running → step s = .next t → t.status ≠ .running →
      (t.status = .halted ∧ decode s.bytesAtPc = .ok .hlt) ∨ t.status = .faulted

/-- LDI loads its second operand byte unchanged, at every value, into every register, the stack pointer among them (R66;
41_hlt_ldi.md). -/
def Obligations.LdiLoadsTheImmediate : Prop :=
  (∀ (i : Fin 8) (imm : Byte) (s : State),
    exec (.ldi (regByte i) imm) s = .next { s with x := s.x.set i imm, pc := s.pc + 3 }) ∧
  ∀ r imm : Byte, (encode (.ldi r imm))[2]? = some imm

/-- PRN and PRA append one event with the register's byte, kinds DEC and CHAR (42_output.md). -/
def Obligations.PrintsEmitOneEvent : Prop :=
  ∀ (i : Fin 8) (s : State),
    exec (.prn (regByte i)) s = .next { s with out := s.out ++ [⟨.dec, s.x[i]⟩], pc := s.pc + 2 } ∧
    exec (.pra (regByte i)) s = .next { s with out := s.out ++ [⟨.char, s.x[i]⟩], pc := s.pc + 2 }

/-- ADD and MUL: the sum and the low byte of the product of the two registers' old values to the first (43_alu.md section
1). -/
def Obligations.AddAndMulWrap : Prop :=
  ∀ (a c : Fin 8) (s : State),
    exec (.add (regByte a) (regByte c)) s = .next { s with x := s.x.set a (s.x[a] + s.x[c]), pc := s.pc + 3 } ∧
    exec (.mul (regByte a) (regByte c)) s = .next { s with x := s.x.set a (s.x[a] * s.x[c]), pc := s.pc + 3 }

/-- INC and DEC wrap: 255 becomes 0 and 0 becomes 255 (43_alu.md section 1). -/
def Obligations.IncAndDecWrap : Prop :=
  ∀ (i : Fin 8) (s : State),
    exec (.inc (regByte i)) s = .next { s with x := s.x.set i (s.x[i] + 1), pc := s.pc + 2 } ∧
    exec (.dec (regByte i)) s = .next { s with x := s.x.set i (s.x[i] - 1), pc := s.pc + 2 }

/-- CMP compares two registers as unsigned bytes and writes E, L and G, nothing else but the pc (43_alu.md section 2). -/
def Obligations.CmpComparesUnsigned : Prop :=
  ∀ (a c : Fin 8) (s : State),
    exec (.cmp (regByte a) (regByte c)) s =
      .next { s with
        flags := ⟨decide (s.x[a] = s.x[c]), decide (s.x[a] < s.x[c]), decide (s.x[c] < s.x[a])⟩
        pc := s.pc + 3 }

/-- PUSH writes the register's old value one below the stack pointer and moves the stack pointer there; at stack pointer 0 it
is StackFault(0) (44_stack.md). PUSH R7 pushing the old stack pointer is the spec's decision D12. -/
def Obligations.PushStoresBelowTheStackPointer : Prop :=
  ∀ (i : Fin 8) (s : State),
    (s.x[7] ≠ 0 →
      exec (.push (regByte i)) s =
        .next { s with
          mem := s.mem.write (s.x[7].toNat - 1) s.x[i]
          x := s.x.set 7 (s.x[7] - 1)
          pc := s.pc + 2 }) ∧
    (s.x[7] = 0 → exec (.push (regByte i)) s = .next (s.takeFault ⟨.stackFault, 0⟩))

/-- POP raises the stack pointer and then writes the byte it pointed to into the register; at or above 244 it is
StackFault(x[7]) (44_stack.md). POP R7 keeping the popped byte is the spec's decision D13, the bound its decision D14. -/
def Obligations.PopLoadsTheTopOfTheStack : Prop :=
  ∀ (i : Fin 8) (s : State),
    (s.x[7].toNat < 244 →
      exec (.pop (regByte i)) s =
        .next { s with x := (s.x.set 7 (s.x[7] + 1)).set i (s.mem.read s.x[7].toNat), pc := s.pc + 2 }) ∧
    (244 ≤ s.x[7].toNat → exec (.pop (regByte i)) s = .next (s.takeFault ⟨.stackFault, s.x[7].setWidth 9⟩))

/-- CALL pushes the address after it and jumps to the register's old value; at address 254 its return address 256 is an
AddressFault, checked before the stack bound (45_control_flow.md; decisions D11, D12). -/
def Obligations.CallPushesTheReturnAddress : Prop :=
  ∀ (i : Fin 8) (s : State),
    (s.pc.toNat ≤ 253 → s.x[7] ≠ 0 →
      exec (.call (regByte i)) s =
        .next { s with
          mem := s.mem.write (s.x[7].toNat - 1) (BitVec.ofNat 8 (s.pc.toNat + 2))
          x := s.x.set 7 (s.x[7] - 1)
          pc := s.x[i].setWidth 9 }) ∧
    (s.pc.toNat = 254 → exec (.call (regByte i)) s = .next (s.takeFault ⟨.addressFault, 256⟩)) ∧
    (s.pc.toNat ≤ 253 → s.x[7] = 0 → exec (.call (regByte i)) s = .next (s.takeFault ⟨.stackFault, 0⟩))

/-- RET pops the byte at the stack pointer into the pc; at or above 244 it is StackFault(x[7]) (45_control_flow.md; decision
D14). -/
def Obligations.RetPopsThePc : Prop :=
  ∀ s : State,
    (s.x[7].toNat < 244 →
      exec .ret s =
        .next { s with x := s.x.set 7 (s.x[7] + 1), pc := (s.mem.read s.x[7].toNat).setWidth 9 }) ∧
    (244 ≤ s.x[7].toNat → exec .ret s = .next (s.takeFault ⟨.stackFault, s.x[7].setWidth 9⟩))

/-- JMP, JEQ and JNE write only the pc: the register's value when the jump is taken, pc+2 when it is not; E alone decides
(45_control_flow.md). -/
def Obligations.JumpsFollowTheEqualFlag : Prop :=
  ∀ (i : Fin 8) (s : State),
    exec (.jmp (regByte i)) s = .next { s with pc := s.x[i].setWidth 9 } ∧
    exec (.jeq (regByte i)) s = .next { s with pc := if s.flags.equal then s.x[i].setWidth 9 else s.pc + 2 } ∧
    exec (.jne (regByte i)) s = .next { s with pc := if s.flags.equal then s.pc + 2 else s.x[i].setWidth 9 }

/-- ST stores the second register's byte at the address in the first and writes nothing else but the pc (46_store.md). -/
def Obligations.StStoresTheRegister : Prop :=
  ∀ (a c : Fin 8) (s : State),
    exec (.st (regByte a) (regByte c)) s =
      .next { s with mem := s.mem.write s.x[a].toNat s.x[c], pc := s.pc + 3 }

/-- The register-index check (R65, R86): 0..7 name the registers, 8..255 raise AddressFault with the byte; every instruction
checks each of its register operands, operand 1 before operand 2, before anything else.What a raise does to the
state is 00_scope.md R14. -/
def Obligations.RegisterOperandsCheckedFirst : Prop :=
  (∀ (b : Byte) (i : Fin 8), regIdx b = .ok i ↔ b.toNat = i) ∧
    (∀ b : Byte, 8 ≤ b.toNat → regIdx b = .error ⟨.addressFault, b.setWidth 9⟩) ∧
    ∀ (i : Instr) (b : Byte) (s : State), i.regOperands.find? (fun r => decide (8 ≤ r.toNat)) = some b →
      exec i s = .next (s.takeFault ⟨.addressFault, b.setWidth 9⟩)

/-- No ALU operation faults on its values; every result is the exact integer result modulo 256 (R121). -/
def Obligations.AluResultsModulo256 : Prop :=
  ∀ a b : Byte,
    (∃ r : Byte, alu .add a b = .ok ⟨some r, none⟩ ∧ r.toNat = (a.toNat + b.toNat) % 256) ∧
    (∃ r : Byte, alu .mul a b = .ok ⟨some r, none⟩ ∧ r.toNat = (a.toNat * b.toNat) % 256) ∧
    (∃ r : Byte, alu .inc a b = .ok ⟨some r, none⟩ ∧ r.toNat = (a.toNat + 1) % 256) ∧
    (∃ r : Byte, alu .dec a b = .ok ⟨some r, none⟩ ∧ (r.toNat : Int) = ((a.toNat : Int) - 1) % 256) ∧
    ∃ f : Flags, alu .cmp a b = .ok ⟨none, some f⟩

/-- CMP is the only instruction that writes a flag, and after any CMP that completes exactly one flag is true (R129). -/
def Obligations.OnlyCmpWritesFlags : Prop :=
  (∀ (i : Instr) (s t : State), (∀ rA rB, i ≠ .cmp rA rB) → exec i s = .next t → t.flags = s.flags) ∧
    ∀ (a c : Fin 8) (s : State), ∃ t, exec (.cmp (regByte a) (regByte c)) s = .next t ∧
      [t.flags.equal, t.flags.lessThan, t.flags.greaterThan].count true = 1

/-! ## Frames -/

/-- Every register an instruction does not write keeps its value; the written ones are those of the table in 10_state.md
section 1, the stack pointer named for PUSH, POP, CALL and RET. -/
def Obligations.UnwrittenRegistersKept : Prop :=
  ∀ (i : Instr) (s t : State), exec i s = .next t → ∀ j : Fin 8, regByte j ∉ i.writtenRegs → t.x[j] = s.x[j]

/-- Every byte of memory keeps its value in an instruction that stores nothing: all but ST, PUSH and CALL (20_memory.md
section 1). -/
def Obligations.NonStoringInstructionsKeepMemory : Prop :=
  ∀ (i : Instr) (s t : State), (∀ rA rB, i ≠ .st rA rB) → (∀ r, i ≠ .push r) → (∀ r, i ≠ .call r) →
    exec i s = .next t → ∀ a, t.mem.read a = s.mem.read a

/-- ST, PUSH and CALL change at most the one byte at the address they store to, which the model computes by the function
named (20_memory.md section 1, 44_stack.md, 46_store.md). -/
def Obligations.StoresChangeOneByte : Prop :=
  (∀ (rA rB : Byte) (s t : State), exec (.st rA rB) s = .next t →
    ∀ addr, (∀ a, regIdx rA = .ok a → addr ≠ s.storeAddress a) → t.mem.read addr = s.mem.read addr) ∧
  (∀ (r : Byte) (s t : State), exec (.push r) s = .next t →
    ∀ addr, (∀ slot, pushSlot s.sp = .ok slot → addr ≠ slot.toNat) → t.mem.read addr = s.mem.read addr) ∧
  ∀ (r : Byte) (s t : State), exec (.call r) s = .next t →
    ∀ addr, (∀ slot, pushSlot s.sp = .ok slot → addr ≠ slot.toNat) → t.mem.read addr = s.mem.read addr

/-- The console output after an instruction is the output before it followed by the instruction's own events: one for a
completed PRN or PRA, none for any other instruction and none for a fault; the console port shows exactly it (42_output.md;
60_exceptions.md section 5, decision D18). That out_kind and out_data carry no value in a step with no event is the model's
choice (log entry 18). -/
def Obligations.OutputGrowsByTheInstructionsEvents : Prop :=
  ∀ (i : Instr) (s t : State), exec i s = .next t →
    (s.instrFault i ≠ none → t.out = s.out ∧ consolePort s t = ⟨false, none, none⟩) ∧
    (s.instrFault i = none → t.out = s.out ++ i.events s ∧
      consolePort s t = match i.events s with
        | [] => ⟨false, none, none⟩
        | e :: _ => ⟨true, some (if e.kind = .char then 1 else 0), some e.value⟩)

/-- Every instruction, in every state, either takes the fault of the first of its own checks that fails, or completes,
leaving the fault record as it was and the status too, but for HLT (60_exceptions.md section 2; decisions D7, D9). -/
def Obligations.EveryInstructionCompletesOrTakesItsFault : Prop :=
  ∀ (i : Instr) (s : State),
    (∀ f, s.instrFault i = some f → exec i s = .next (s.takeFault f)) ∧
    (s.instrFault i = none →
      ∃ t, exec i s = .next t ∧ t.status = (if i = .hlt then .halted else s.status) ∧
        t.faultCode = s.faultCode ∧ t.faultPc = s.faultPc ∧ t.faultInfo = s.faultInfo)

/-! ## Faults -/

/-- A faulting step writes only the status and the fault record, with fault_pc the address of the faulting instruction
(60_exceptions.md section 2, decision D7). -/
def Obligations.FaultsArePrecise : Prop :=
  ∀ s t : State, s.status = .running → step s = .next t → t.status = .faulted →
    t = { s with status := .faulted, faultCode := t.faultCode, faultPc := s.pc, faultInfo := t.faultInfo } ∧
      t.faultCode ≠ .none

/-- A step of a RUNNING core faults exactly when one of the checks fails, and reports the first of them in the spec's order of
priority (60_exceptions.md section 2, decision D9). -/
def Obligations.FaultsByPriority : Prop :=
  ∀ s : State, s.status = .running →
    (∀ f, s.firstFault = some f → step s = .next (s.takeFault f)) ∧
    (s.firstFault = none → ∃ t, step s = .next t ∧ t.status ≠ .faulted)

/-- UnsupportedOperation is unreachable: the decoder drives alu_op only with the five kinds, and no step reports that fault;
the alu raises it for any other value (43_alu.md section 3, decision D21). -/
def Obligations.UnsupportedOperationUnreachable : Prop :=
  (∀ (o : Opcode) (raw : PcWord), decodedAluOp o ≠ some (.other raw)) ∧
    (∀ (raw : PcWord) (a b : Byte), alu (.other raw) a b = .error ⟨.unsupportedOperation, raw⟩) ∧
    ∀ s t : State, s.status = .running → step s = .next t → t.status = .faulted →
      t.faultCode = .illegalInstruction ∨ t.faultCode = .addressFault ∨ t.faultCode = .stackFault

/-- The codes the status outputs drive (40_engine.md section 1, 60_exceptions.md section 1; decisions D6, D8). -/
def Obligations.StatusOutputCodes : Prop :=
  ∀ s : State, s.statusOut.faultPc = s.faultPc ∧ s.statusOut.faultInfo = s.faultInfo ∧
    s.statusOut.status = (match s.status with | .idle => 0 | .running => 1 | .halted => 2 | .faulted => 3) ∧
    s.statusOut.faultCode = match s.faultCode with
      | .none => 0 | .illegalInstruction => 1 | .addressFault => 2 | .stackFault => 3 | .unsupportedOperation => 4

/-! ## Memory, the stack, and the machine as a whole -/

/-- The memory and console primitives (R13, R40): every one of the 256 cells can be read and written, a read after a write
gives the byte written, no other cell changes, an address above 255 is an AddressFault; Emit appends one event. -/
def Obligations.EveryCellReadableAndWritable : Prop :=
  (∀ (s : State) (a : Nat) (v : Byte), s.mem.wf → a ≤ 255 →
    s.memRead a = .ok (s.mem.read a) ∧
    ∃ t, s.memWrite a v = .ok t ∧ t = { s with mem := t.mem } ∧ t.memRead a = .ok v ∧
      ∀ a', a' ≠ a → t.mem.read a' = s.mem.read a') ∧
  (∀ (s : State) (a : Nat) (v : Byte), 255 < a →
    s.memRead a = .error ⟨.addressFault, BitVec.ofNat 9 a⟩ ∧
    s.memWrite a v = .error ⟨.addressFault, BitVec.ofNat 9 a⟩) ∧
  ∀ (s : State) (k : OutKind) (v : Byte), s.emit k v = { s with out := s.out ++ [⟨k, v⟩] }

/-- A byte stored by ST, PUSH or CALL is the opcode byte of a fetch at that address from the state it leaves, with no wait
and no fence (20_memory.md section 4, decision D16). -/
def Obligations.NextFetchSeesTheStore : Prop :=
  ∀ (s t u : State), s.mem.wf → u.mem = t.mem →
    (∀ a c : Fin 8, exec (.st (regByte a) (regByte c)) s = .next t → u.pc.toNat = s.x[a].toNat →
      u.bytesAtPc.head? = some s.x[c]) ∧
    (∀ i : Fin 8, s.x[7] ≠ 0 → exec (.push (regByte i)) s = .next t → u.pc.toNat + 1 = s.x[7].toNat →
      u.bytesAtPc.head? = some s.x[i]) ∧
    (∀ i : Fin 8, s.pc.toNat ≤ 253 → s.x[7] ≠ 0 → exec (.call (regByte i)) s = .next t →
      u.pc.toNat + 1 = s.x[7].toNat → u.bytesAtPc.head? = some (BitVec.ofNat 8 (s.pc.toNat + 2)))

/-- PUSH then POP of the same register restores every register, the stack pointer among them, when the push starts at 1..244;
a push at 245..255 completes and the POP after it faults (44_stack.md section 2). -/
def Obligations.PushThenPopRestores : Prop :=
  ∀ (i : Fin 8) (s : State), s.mem.wf → s.x[7] ≠ 0 →
    ∃ t, exec (.push (regByte i)) s = .next t ∧
      (s.x[7].toNat ≤ 244 → ∃ u, exec (.pop (regByte i)) t = .next u ∧ u.x = s.x) ∧
      (245 ≤ s.x[7].toNat → exec (.pop (regByte i)) t = .next (t.takeFault ⟨.stackFault, t.x[7].setWidth 9⟩))

/-- CALL then RET: from any state that keeps the stack pointer and the return-address byte as CALL left them, RET goes to the
instruction after the CALL and restores the stack pointer (45_control_flow.md). -/
def Obligations.CallThenRetReturns : Prop :=
  ∀ (i : Fin 8) (s : State), s.mem.wf → s.pc.toNat ≤ 253 → s.x[7] ≠ 0 → s.x[7].toNat ≤ 244 →
    ∃ t, exec (.call (regByte i)) s = .next t ∧ t.pc = s.x[i].setWidth 9 ∧
      ∀ u : State, u.x[7] = t.x[7] → u.mem.read u.x[7].toNat = t.mem.read t.x[7].toNat →
        ∃ v, exec .ret u = .next v ∧ v.pc = s.pc + 2 ∧ v.x[7] = s.x[7]

/-- Stack capacity: from stack pointer 244, 244 pushes in a row complete, each lowering the stack pointer by one, and the
245th is StackFault(0) (44_stack.md section 2). -/
def Obligations.StackHolds244Bytes : Prop :=
  ∀ (regs : List (Fin 8)) (s : State), s.status = .running → s.x[7] = 244 →
    (regs.length ≤ 244 →
      ∃ t, execAll (regs.map fun i => .push (regByte i)) s = .next t ∧ t.status = .running ∧
        t.x[7].toNat = 244 - regs.length) ∧
    (regs.length = 245 →
      ∃ t, execAll (regs.map fun i => .push (regByte i)) s = .next t ∧ t.status = .faulted ∧
        t.faultCode = .stackFault ∧ t.faultInfo = 0)

/-- A jump to its own address is a hang, not a fault: the step leaves the same state (45_control_flow.md). -/
def Obligations.JumpToItselfChangesNothing : Prop :=
  ∀ (i : Fin 8) (s : State), s.status = .running → decode s.bytesAtPc = .ok (.jmp (regByte i)) →
    s.x[i].setWidth 9 = s.pc → step s = .next s

/-- Console events are never withdrawn: out is empty at reset, and at any point of a run it begins with what it held before,
a fault included (R33). -/
def Obligations.EventsNeverWithdrawn : Prop :=
  State.reset.out = [] ∧
    ∀ (k : Nat) (s t : State), Sys2Proof.core.run k s = .next t → ∃ later, t.out = s.out ++ later

/-- The debug trace: pc, the eight registers, and the bytes at pc, pc+1, pc+2, each absent above address 255
(60_exceptions.md section 5, decision D24). -/
def Obligations.DebugTraceShowsPcBytesRegisters : Prop :=
  ∀ s : State, s.debugTrace.view = ⟨s.pc, s.x⟩ ∧ s.debugTrace.bytes.length = 3 ∧
    ∀ k : Fin 3, s.debugTrace.bytes[k]? =
      some (if s.pc.toNat + k ≤ 255 then some (s.mem.read (s.pc.toNat + k)) else none)

/-- The state after reset satisfies the invariant (10_state.md section 8). -/
def Obligations.ResetSatisfiesInvariant : Prop := State.reset.Inv

/-- The state in which a loaded program starts satisfies the invariant, whatever the program (70_reset_and_hazards.md section
2). The canonical form of memory, the Loader's reading of a base-2 token, and memory after a load failure for a token above
255 or an image above 256 bytes, are the model's choices (log entries 12, 6 and 20). -/
def Obligations.BootSatisfiesInvariant : Prop :=
  ∀ (s : State) (source : Option (List Char)), (s.hostBoot source).1.Inv

/-- Every step keeps the invariant: memory in canonical form, pc at most 256, at most one flag set, the fault record clear
unless FAULTED and then true of the state (10_state.md, 60_exceptions.md sections 1 and 2). The canonical form is the model's
choice (log entry 12). -/
def Obligations.StepKeepsInvariant : Prop :=
  ∀ s t : State, s.Inv → step s = .next t → t.Inv

/-- L, G, the fault record and the earlier output are read by nothing: two states that agree on the registers, E, pc, status
and memory take steps that end alike, agree again and emit the same events (10_state.md section 3; 60_exceptions.md section
5). -/
def Obligations.UnreadStateChangesNothing : Prop :=
  ∀ s s' : State, s.agree s' →
    (s.status = .running →
      ∃ t t' events, step s = .next t ∧ step s' = .next t' ∧ t.agree t' ∧
        t.out = s.out ++ events ∧ t'.out = s'.out ++ events) ∧
    (s.status ≠ .running → step s' = step s)
end

