-- ==== Sys2Proof/Laws/Decode.lean ====
section
/-! SUPPORT. What the decoder and the encoder answer. -/

namespace Sys2Proof

/-- Decoding finds an opcode by its whole byte. -/
@[simp] theorem decodeOpcode_code (o : Opcode) : decodeOpcode o.code = some o := by
  cases o <;> rfl

theorem code_of_decodeOpcode {op : Byte} {o : Opcode} (h : decodeOpcode op = some o) : o.code = op := by
  have := List.find?_some h
  simpa using this

/-- The operand count of each opcode of the table (30_encoding.md R63). -/
theorem operandCount_code (o : Opcode) :
    operandCount o.code =
      match o with
      | .hlt | .ret => 0
      | .prn | .pra | .inc | .dec | .push | .pop | .call | .jmp | .jeq | .jne => 1
      | .ldi | .add | .mul | .cmp | .st => 2 := by
  cases o <;> decide

theorem operandCount_le (o : Opcode) : operandCount o.code ≤ 2 := by cases o <;> decide

/-- An opcode's instruction has as many operand bytes as the opcode tells. -/
theorem assemble_operands_length (o : Opcode) (bs : List Byte) :
    (o.assemble bs).operands.length = operandCount o.code := by
  rw [operandCount_code]; cases o <;> rfl

@[simp] theorem assemble_opcode (o : Opcode) (bs : List Byte) : (o.assemble bs).opcode = o := by
  cases o <;> rfl

/-- An instruction is its opcode put together with its operand bytes. -/
@[simp] theorem assemble_operands (i : Instr) : i.opcode.assemble i.operands = i := by
  cases i <;> rfl

theorem operands_length (i : Instr) : i.operands.length = operandCount i.opcode.code := by
  have := assemble_operands_length i.opcode i.operands
  rwa [assemble_operands] at this

/-- The decoder, where the opcode byte can be read: rejected, or its operands read in order. -/
theorem decodeFrom_of_opcode {ε : Type} {read : Nat → Except ε Byte} {illegal : Byte → ε} {op : Byte}
    (h : read 0 = .ok op) :
    decodeFrom read illegal =
      match decodeOpcode op with
      | none => .error (illegal op)
      | some o =>
        match readOperands read 1 (operandCount op) with
        | .error e => .error e
        | .ok operands => .ok (o.assemble operands) := by
  unfold decodeFrom
  rw [h] <;> rfl

/-- Operands that can all be read are read in order. -/
theorem readOperands_ok {ε : Type} {read : Nat → Except ε Byte} {first : Nat} {bs : List Byte}
    (h : ∀ k, (hk : k < bs.length) → read (first + k) = .ok bs[k]) :
    readOperands read first bs.length = .ok bs := by
  induction bs generalizing first with
  | nil => rfl
  | cons b rest ih =>
    have h0 : read first = .ok b := h 0 (by simp)
    have hr : readOperands read (first + 1) rest.length = .ok rest := by
      refine ih fun k hk => ?_
      have := h (k + 1) (by simpa using hk)
      rw [show first + 1 + k = first + (k + 1) by omega]
      simpa using this
    simp only [List.length_cons, readOperands, h0, hr]

/-- The first operand that cannot be read is the one reported. -/
theorem readOperands_error {ε : Type} {read : Nat → Except ε Byte} {first n k : Nat} {e : ε} (hk : k < n)
    (h : ∀ j, j < k → ∃ b, read (first + j) = .ok b) (he : read (first + k) = .error e) :
    readOperands read first n = .error e := by
  induction k generalizing first n with
  | zero =>
    obtain ⟨n, rfl⟩ : ∃ m, n = m + 1 := ⟨n - 1, by omega⟩
    have he' : read first = .error e := he
    simp only [readOperands, he']
  | succ k ih =>
    obtain ⟨n, rfl⟩ : ∃ m, n = m + 1 := ⟨n - 1, by omega⟩
    obtain ⟨b, hb⟩ := h 0 (by omega)
    have hr : readOperands read (first + 1) n = .error e := by
      refine ih (by omega) (fun j hj => ?_) ?_
      · obtain ⟨b, hb⟩ := h (j + 1) (by omega)
        exact ⟨b, by rw [show first + 1 + j = first + (j + 1) by omega]; exact hb⟩
      · rw [show first + 1 + k = first + (k + 1) by omega]; exact he
    have hb' : read first = .ok b := hb
    simp only [readOperands, hb', hr]

end Sys2Proof
end

