-- ==== Sys2Proof/Laws/Memory.lean ====
section
/-! SUPPORT. The laws of memory: a read after a write, the canonical form, and equal memories. -/

namespace Sys2Proof.Machine

@[simp] theorem Memory.read_nil (a : Nat) : Memory.read [] a = Config.unlistedByte := rfl

/-- An address below every listed one reads as an unlisted byte. -/
theorem Memory.read_below {m : Memory} {a : Nat} (h : ∀ c ∈ m, a < c.1) :
    Memory.read m a = Config.unlistedByte := by
  induction m with
  | nil => rfl
  | cons c rest ih =>
    obtain ⟨k, b⟩ := c
    have hk : a < k := h (k, b) (by simp)
    simp only [Memory.read, if_neg (Nat.ne_of_lt hk)]
    exact ih fun c hc => h c (by simp [hc])

theorem Memory.sorted_tail {c : Host.Cell} {m : Memory} (h : (c :: m).Pairwise (fun p q => p.1 < q.1)) :
    (∀ d ∈ m, c.1 < d.1) ∧ m.Pairwise (fun p q => p.1 < q.1) := by simpa using h

/-- A read after a write to the same address gives the byte written. -/
theorem Memory.read_write_same {m : Memory} (h : m.Pairwise (fun p q => p.1 < q.1)) (a : Nat) (v : Byte) :
    Memory.read (Memory.write m a v) a = v := by
  induction m with
  | nil => by_cases hv : v = 0#8 <;> simp [Memory.write, Memory.read, hv]
  | cons c rest ih =>
    obtain ⟨k, b⟩ := c
    obtain ⟨hlt, hs⟩ := Memory.sorted_tail h
    rcases Nat.lt_trichotomy a k with hak | hak | hak
    · by_cases hv : v = Config.unlistedByte
      · subst hv
        simp only [Memory.write, if_pos hak, if_true]
        refine Memory.read_below fun c hc => ?_
        rcases List.mem_cons.1 hc with rfl | hc
        · exact hak
        · exact Nat.lt_trans hak (hlt c hc)
      · simp only [Memory.write, if_pos hak, if_neg hv, Memory.read, if_true]
    · subst hak
      by_cases hv : v = Config.unlistedByte
      · subst hv
        simp only [Memory.write, Nat.lt_irrefl, if_false, if_true]
        exact Memory.read_below hlt
      · simp only [Memory.write, Nat.lt_irrefl, if_false, if_true, if_neg hv, Memory.read]
    · have h1 : ¬ a < k := by omega
      have h2 : a ≠ k := by omega
      simp only [Memory.write, if_neg h1, if_neg h2, Memory.read]
      exact ih hs

/-- A write leaves every other address alone. -/
theorem Memory.read_write_ne {m : Memory} {a a' : Nat} (v : Byte) (h : a' ≠ a) :
    Memory.read (Memory.write m a v) a' = Memory.read m a' := by
  induction m with
  | nil => by_cases hv : v = 0#8 <;> simp [Memory.write, Memory.read, hv, h]
  | cons c rest ih =>
    obtain ⟨k, b⟩ := c
    simp only [Memory.write]
    split
    · split <;> simp [Memory.read, h]
    · split
      · next hk => subst hk; split <;> simp [Memory.read, h]
      · simp [Memory.read, ih]

/-- Read after write, both cases. -/
theorem Memory.read_write {m : Memory} (h : m.wf) (a a' : Nat) (v : Byte) :
    Memory.read (Memory.write m a v) a' = if a' = a then v else Memory.read m a' := by
  by_cases e : a' = a
  · subst e; simp [Memory.read_write_same h.1]
  · simp [e, Memory.read_write_ne v e]

/-- Every cell after a write is the written one or was there before. -/
theorem Memory.mem_write {m : Memory} {a : Nat} {v : Byte} {c : Host.Cell} (h : c ∈ Memory.write m a v) :
    (c = (a, v) ∧ v ≠ Config.unlistedByte) ∨ c ∈ m := by
  induction m with
  | nil =>
    by_cases hv : v = Config.unlistedByte
    · simp [Memory.write, hv] at h
    · simp only [Memory.write, if_neg hv, List.mem_singleton] at h
      exact .inl ⟨h, hv⟩
  | cons d rest ih =>
    obtain ⟨k, b⟩ := d
    simp only [Memory.write] at h
    split at h
    · split at h
      · exact .inr h
      · next hv =>
        rcases List.mem_cons.1 h with rfl | h
        · exact .inl ⟨rfl, hv⟩
        · exact .inr h
    · split at h
      · split at h
        · exact .inr (List.mem_cons_of_mem _ h)
        · next hv =>
          rcases List.mem_cons.1 h with rfl | h
          · exact .inl ⟨rfl, hv⟩
          · exact .inr (List.mem_cons_of_mem _ h)
      · rcases List.mem_cons.1 h with rfl | h
        · exact .inr (by simp)
        · rcases ih h with h | h
          · exact .inl h
          · exact .inr (List.mem_cons_of_mem _ h)

theorem Memory.sorted_write {m : Memory} (h : m.Pairwise (fun p q => p.1 < q.1)) (a : Nat) (v : Byte) :
    (Memory.write m a v).Pairwise (fun p q => p.1 < q.1) := by
  induction m with
  | nil => by_cases hv : v = 0#8 <;> simp [Memory.write, hv]
  | cons c rest ih =>
    obtain ⟨k, b⟩ := c
    obtain ⟨hlt, hs⟩ := Memory.sorted_tail h
    simp only [Memory.write]
    split
    · next hak =>
      split
      · exact h
      · refine List.Pairwise.cons (fun d hd => ?_) h
        rcases List.mem_cons.1 hd with rfl | hd
        · exact hak
        · exact Nat.lt_trans hak (hlt d hd)
    · split
      · next hak =>
        subst hak
        split
        · exact hs
        · exact List.Pairwise.cons hlt hs
      · next h1 h2 =>
        refine List.Pairwise.cons (fun d hd => ?_) (ih hs)
        rcases Memory.mem_write hd with ⟨rfl, -⟩ | hd
        · simp only; omega
        · exact hlt d hd

/-- A write inside the address space keeps the canonical form. -/
theorem Memory.wf_write {m : Memory} (h : m.wf) {a : Nat} (ha : a < Config.memSize) (v : Byte) :
    (Memory.write m a v).wf := by
  refine ⟨Memory.sorted_write h.1 a v, fun c hc => ?_⟩
  rcases Memory.mem_write hc with ⟨rfl, hv⟩ | hc
  · exact ⟨ha, hv⟩
  · exact h.2 c hc

/-- Writing an image keeps the canonical form. -/
theorem Memory.wf_writeBytes {m : Memory} (h : m.wf) (a : Nat) (bytes : List Byte) :
    (Memory.writeBytes m a bytes).wf := by
  induction bytes generalizing m a with
  | nil => exact h
  | cons b rest ih =>
    simp only [Memory.writeBytes]
    split
    · next ha => exact ih (Memory.wf_write h ha b) _
    · exact ih h _

/-- Reset memory is in canonical form. -/
theorem Memory.wf_nil : Memory.wf [] := by decide

/-- Canonical memories that read the same are the same list. -/
theorem Memory.eq_of_read {m n : Memory} (hm : m.wf) (hn : n.wf)
    (h : ∀ a, Memory.read m a = Memory.read n a) : m = n := by
  induction m generalizing n with
  | nil =>
    cases n with
    | nil => rfl
    | cons c rest =>
      have := h c.1
      simp only [Memory.read, if_true] at this
      exact absurd this.symm (hn.2 c (by simp)).2
  | cons c rest ih =>
    obtain ⟨k, b⟩ := c
    obtain ⟨hlt, hs⟩ := Memory.sorted_tail hm.1
    have hb : b ≠ Config.unlistedByte := (hm.2 (k, b) (by simp)).2
    cases n with
    | nil =>
      have := h k
      simp only [Memory.read, if_true] at this
      exact absurd this hb
    | cons d rest' =>
      obtain ⟨k', b'⟩ := d
      obtain ⟨hlt', hs'⟩ := Memory.sorted_tail hn.1
      have hb' : b' ≠ Config.unlistedByte := (hn.2 (k', b') (by simp)).2
      have below : ∀ a, a < k' → Memory.read ((k', b') :: rest') a = Config.unlistedByte := fun a ha =>
        Memory.read_below fun c hc => by
          rcases List.mem_cons.1 hc with rfl | hc
          · exact ha
          · exact Nat.lt_trans ha (hlt' c hc)
      have below' : ∀ a, a < k → Memory.read ((k, b) :: rest) a = Config.unlistedByte := fun a ha =>
        Memory.read_below fun c hc => by
          rcases List.mem_cons.1 hc with rfl | hc
          · exact ha
          · exact Nat.lt_trans ha (hlt c hc)
      have hk : k = k' := by
        rcases Nat.lt_trichotomy k k' with hl | he | hl
        · have := h k
          rw [below k hl] at this
          simp only [Memory.read, if_true] at this
          exact absurd this hb
        · exact he
        · have := h k'
          rw [below' k' hl] at this
          simp only [Memory.read, if_true] at this
          exact absurd this.symm hb'
      subst hk
      have hbb : b = b' := by simpa [Memory.read] using h k
      subst hbb
      have hrest : rest = rest' := by
        refine ih ⟨hs, fun c hc => hm.2 c (by simp [hc])⟩ ⟨hs', fun c hc => hn.2 c (by simp [hc])⟩ fun a => ?_
        by_cases ha : a = k
        · subst ha; rw [Memory.read_below hlt, Memory.read_below hlt']
        · simpa [Memory.read, ha] using h a
      rw [hrest]

end Sys2Proof.Machine
end

