-- ==== Sys2Proof/Laws/State.lean ====
section
/-! SUPPORT. What each state update leaves and sets, one lemma per field. -/

namespace Sys2Proof.Machine

section Updates
variable (s : State) (f : Raised) (i j : Fin 8) (v : Byte) (fl : Flags) (k : OutKind)

@[simp] theorem takeFault_x : (s.takeFault f).x = s.x := rfl
@[simp] theorem takeFault_flags : (s.takeFault f).flags = s.flags := rfl
@[simp] theorem takeFault_pc : (s.takeFault f).pc = s.pc := rfl
@[simp] theorem takeFault_status : (s.takeFault f).status = .faulted := rfl
@[simp] theorem takeFault_faultCode : (s.takeFault f).faultCode = f.code := rfl
@[simp] theorem takeFault_faultPc : (s.takeFault f).faultPc = s.pc := rfl
@[simp] theorem takeFault_faultInfo : (s.takeFault f).faultInfo = f.info := rfl
@[simp] theorem takeFault_mem : (s.takeFault f).mem = s.mem := rfl
@[simp] theorem takeFault_out : (s.takeFault f).out = s.out := rfl

@[simp] theorem setReg_x : (s.setReg i v).x = s.x.set i v := rfl
@[simp] theorem setReg_flags : (s.setReg i v).flags = s.flags := rfl
@[simp] theorem setReg_pc : (s.setReg i v).pc = s.pc := rfl
@[simp] theorem setReg_status : (s.setReg i v).status = s.status := rfl
@[simp] theorem setReg_faultCode : (s.setReg i v).faultCode = s.faultCode := rfl
@[simp] theorem setReg_faultPc : (s.setReg i v).faultPc = s.faultPc := rfl
@[simp] theorem setReg_faultInfo : (s.setReg i v).faultInfo = s.faultInfo := rfl
@[simp] theorem setReg_mem : (s.setReg i v).mem = s.mem := rfl
@[simp] theorem setReg_out : (s.setReg i v).out = s.out := rfl

@[simp] theorem setFlags_x : (s.setFlags fl).x = s.x := rfl
@[simp] theorem setFlags_flags : (s.setFlags fl).flags = fl := rfl
@[simp] theorem setFlags_pc : (s.setFlags fl).pc = s.pc := rfl
@[simp] theorem setFlags_status : (s.setFlags fl).status = s.status := rfl
@[simp] theorem setFlags_faultCode : (s.setFlags fl).faultCode = s.faultCode := rfl
@[simp] theorem setFlags_faultPc : (s.setFlags fl).faultPc = s.faultPc := rfl
@[simp] theorem setFlags_faultInfo : (s.setFlags fl).faultInfo = s.faultInfo := rfl
@[simp] theorem setFlags_mem : (s.setFlags fl).mem = s.mem := rfl
@[simp] theorem setFlags_out : (s.setFlags fl).out = s.out := rfl

@[simp] theorem emit_x : (s.emit k v).x = s.x := rfl
@[simp] theorem emit_flags : (s.emit k v).flags = s.flags := rfl
@[simp] theorem emit_pc : (s.emit k v).pc = s.pc := rfl
@[simp] theorem emit_status : (s.emit k v).status = s.status := rfl
@[simp] theorem emit_faultCode : (s.emit k v).faultCode = s.faultCode := rfl
@[simp] theorem emit_faultPc : (s.emit k v).faultPc = s.faultPc := rfl
@[simp] theorem emit_faultInfo : (s.emit k v).faultInfo = s.faultInfo := rfl
@[simp] theorem emit_mem : (s.emit k v).mem = s.mem := rfl
@[simp] theorem emit_out : (s.emit k v).out = s.out ++ [⟨k, v⟩] := rfl

@[simp] theorem halt_x : s.halt.x = s.x := rfl
@[simp] theorem halt_flags : s.halt.flags = s.flags := rfl
@[simp] theorem halt_pc : s.halt.pc = s.pc := rfl
@[simp] theorem halt_status : s.halt.status = .halted := rfl
@[simp] theorem halt_faultCode : s.halt.faultCode = s.faultCode := rfl
@[simp] theorem halt_faultPc : s.halt.faultPc = s.faultPc := rfl
@[simp] theorem halt_faultInfo : s.halt.faultInfo = s.faultInfo := rfl
@[simp] theorem halt_mem : s.halt.mem = s.mem := rfl
@[simp] theorem halt_out : s.halt.out = s.out := rfl

@[simp] theorem reg_setReg_self : (s.setReg i v).reg i = v := by simp [State.reg]

theorem reg_setReg_of_ne (h : j ≠ i) : (s.setReg i v).reg j = s.reg j := by
  have h' : (i : Nat) ≠ j := fun e => h (Fin.ext e.symm)
  simp [State.reg, h']

/-- A register write sets that register and no other. -/
theorem reg_setReg : (s.setReg i v).reg j = if j = i then v else s.reg j := by
  by_cases h : j = i
  · subst h; simp
  · simp [h, reg_setReg_of_ne]

@[simp] theorem reg_setFlags : (s.setFlags fl).reg j = s.reg j := rfl
@[simp] theorem reg_emit : (s.emit k v).reg j = s.reg j := rfl
@[simp] theorem reg_takeFault : (s.takeFault f).reg j = s.reg j := rfl
@[simp] theorem reg_halt : s.halt.reg j = s.reg j := rfl
@[simp] theorem reg_with_pc (p : PcWord) : State.reg { s with pc := p } j = s.reg j := rfl
@[simp] theorem reg_with_mem (m : Memory) : State.reg { s with mem := m } j = s.reg j := rfl

@[simp] theorem placeAtPc_pc (bytes : List Byte) : (s.placeAtPc bytes).pc = s.pc := rfl
@[simp] theorem placeAtPc_status (bytes : List Byte) : (s.placeAtPc bytes).status = .running := rfl
@[simp] theorem placeAtPc_x (bytes : List Byte) : (s.placeAtPc bytes).x = s.x := rfl

end Updates

end Sys2Proof.Machine
end

