-- ==== Sys2Proof/Laws/Ops.lean ====
section
/-! SUPPORT. One lemma per shared operation: what it answers, once and for all its cases. -/

namespace Sys2Proof.Machine

/-! ## Register operands -/

@[simp] theorem regByte_toNat (i : Fin 8) : (regByte i).toNat = i := by
  have := i.isLt
  simp only [regByte, BitVec.toNat_ofNat]; omega

/-- The check passes on the byte of a register and gives that register. -/
@[simp] theorem regIdx_regByte (i : Fin 8) : regIdx (regByte i) = .ok i := by
  have h : (regByte i).toNat < Config.regCount := by simp
  simp only [regIdx, dif_pos h]
  exact congrArg _ (Fin.ext (by simp))

theorem regIdx_of_ge {b : Byte} (h : 8 ≤ b.toNat) : regIdx b = .error (.addressFault b.toNat) := by
  simp [regIdx, Nat.not_lt.2 h]

/-- A byte below 8 is the byte of a register. -/
theorem eq_regByte {b : Byte} (h : b.toNat < 8) : b = regByte ⟨b.toNat, h⟩ := by
  apply BitVec.eq_of_toNat_eq; simp

/-- What the register-index check can answer. -/
theorem regIdx_cases (b : Byte) :
    (∃ i : Fin 8, b = regByte i ∧ regIdx b = .ok i) ∨
      (8 ≤ b.toNat ∧ regIdx b = .error (.addressFault b.toNat)) := by
  by_cases h : b.toNat < 8
  · refine .inl ⟨⟨b.toNat, h⟩, eq_regByte h, ?_⟩
    simp [regIdx, h]
  · exact .inr ⟨by omega, regIdx_of_ge (by omega)⟩

/-! ## Memory access -/

theorem memRead_of_lt {s : State} {a : Nat} (h : a < 256) : s.memRead a = .ok (s.mem.read a) := by
  simp [State.memRead, h]

theorem memRead_of_ge {s : State} {a : Nat} (h : 256 ≤ a) : s.memRead a = .error (.addressFault a) := by
  simp [State.memRead, Nat.not_lt.2 h]

/-- An address held in a register is always in range (20_memory.md R42). -/
@[simp] theorem memRead_byte (s : State) (b : Byte) : s.memRead b.toNat = .ok (s.mem.read b.toNat) :=
  memRead_of_lt b.isLt

@[simp] theorem memWrite_byte (s : State) (b v : Byte) :
    s.memWrite b.toNat v = .ok { s with mem := s.mem.write b.toNat v } := by
  have := b.isLt
  simp [State.memWrite, this]

/-! ## The stack -/

/-- Everything a push can do (44_stack.md R141). -/
theorem pushByte_eq (s : State) (v : Byte) :
    s.pushByte v =
      if s.sp = 0 then .error (.stackFault s.sp)
      else .ok (State.setReg { s with mem := s.mem.write (s.sp - 1).toNat v } 7 (s.sp - 1)) := by
  by_cases h : s.sp = 0
  · rw [if_pos h]; simp only [State.pushByte, pushSlot, if_pos h]; rfl
  · rw [if_neg h]; simp only [State.pushByte, pushSlot, if_neg h, bind, Except.bind, memWrite_byte]; rfl

/-- Everything a pop can do (44_stack.md R141). -/
theorem popByte_eq (s : State) :
    s.popByte =
      if Config.stackEmpty ≤ s.sp then .error (.stackFault s.sp)
      else .ok (s.mem.read s.sp.toNat, s.setReg 7 (s.sp + 1)) := by
  by_cases h : Config.stackEmpty ≤ s.sp
  · rw [if_pos h]; simp only [State.popByte, popSlot, if_pos h]; rfl
  · rw [if_neg h]; simp only [State.popByte, popSlot, if_neg h, bind, Except.bind, memRead_byte]; rfl

/-- The address a push writes is one below the stack pointer, which does not wrap. -/
theorem push_address {sp : Byte} (h : sp ≠ 0) : (sp - 1).toNat = sp.toNat - 1 := by
  have : sp.toNat ≠ 0 := fun e => h (BitVec.eq_of_toNat_eq (by simpa using e))
  have := sp.isLt
  have h1 : (1 : Byte).toNat = 1 := rfl
  rw [BitVec.toNat_sub, h1]; omega

/-! ## The end of an instruction -/

@[simp] theorem complete_error (s : State) (n : Nat) (f : Raised) :
    s.complete n (.error f) = .next (s.takeFault f) := rfl

@[simp] theorem complete_ok (s t : State) (n : Nat) (o : HandlerOutcome) :
    s.complete n (.ok (t, o)) = .next { t with pc := s.nextPc n o } := rfl

/-- An instruction that ends this way always answers a next state: its fault taken, or its handler's state with the pc
updated. -/
theorem complete_cases (s t : State) (n : Nat) (r : Raises (State × HandlerOutcome)) :
    s.complete n r = .next t ↔
      (∃ f, r = .error f ∧ t = s.takeFault f) ∨ (∃ u o, r = .ok (u, o) ∧ t = { u with pc := s.nextPc n o }) := by
  rcases r with f | ⟨u, o⟩
  · simp [eq_comm]
  · simp [eq_comm]

theorem complete_next (s : State) (n : Nat) (r : Raises (State × HandlerOutcome)) :
    ∃ t, s.complete n r = .next t := by
  rcases r with f | ⟨u, o⟩ <;> exact ⟨_, rfl⟩

/-- `pc + k` is exact as long as it fits in 9 bits. -/
theorem pcPlus_toNat {s : State} {k : Nat} (h : s.pc.toNat + k < 512) : (s.pcPlus k).toNat = s.pc.toNat + k := by
  simp only [State.pcPlus, BitVec.toNat_add, BitVec.toNat_ofNat]; omega

@[simp] theorem byteToPc_toNat (b : Byte) : (byteToPc b).toNat = b.toNat := by
  have := b.isLt
  simp only [byteToPc, BitVec.toNat_setWidth]; omega

/-! ## The ALU -/

/-- None of the five operation kinds faults, whatever its inputs (43_alu.md R121). -/
theorem alu_ok {op : AluOp} (h : ∀ raw, op ≠ .other raw) (a b : Byte) : ∃ o, alu op a b = .ok o := by
  cases op with
  | other raw => exact absurd rfl (h raw)
  | add | mul | inc | dec | cmp => exact ⟨_, rfl⟩

/-! ## Before an instruction -/

/-- What comes before an instruction: in RUNNING it is the fetch, its fault taken; elsewhere there is no step. -/
theorem nextInstr_running {s : State} (h : s.status = .running) :
    s.nextInstr =
      match s.fetchInstr with
      | .ok i => .ok i
      | .error f => .error (.next (s.takeFault f)) := by
  cases hf : s.fetchInstr <;> simp only [State.nextInstr, h, hf]

theorem nextInstr_stopped {s : State} (h : s.status ≠ .running) : s.nextInstr = .error s.noStep := by
  cases hs : s.status <;> simp_all [State.nextInstr]

end Sys2Proof.Machine
end

