-- ==== Sys2Proof/Laws/Fetch.lean ====
section
/-! SUPPORT. The bytes at pc, and the machine's fetch as the decoder on them. -/

namespace Sys2Proof.Machine

/-- The byte at offset `k` of the bytes at pc: there exactly when its address is at most 255. -/
theorem bytesAtPc_get (s : State) {k : Nat} (hk : k < 3) :
    s.bytesAtPc[k]? = if s.pc.toNat + k < 256 then some (s.mem.read (s.pc.toNat + k)) else none := by
  let cell (k : Nat) : Option Byte := if s.pc.toNat + k < 256 then some (s.mem.read (s.pc.toNat + k)) else none
  have hc : s.bytesAtPc = [cell 0, cell 1, cell 2].filterMap id := rfl
  have there : ∀ k, s.pc.toNat + k < 256 → cell k = some (s.mem.read (s.pc.toNat + k)) := fun _ h => if_pos h
  have absent : ∀ k, ¬ s.pc.toNat + k < 256 → cell k = none := fun _ h => if_neg h
  obtain ⟨n, hn, h1, h2⟩ : ∃ n ≤ 3, (∀ j < n, s.pc.toNat + j < 256) ∧ ∀ j, n ≤ j → j < 3 → ¬ s.pc.toNat + j < 256 :=
    ⟨min 3 (256 - s.pc.toNat), by omega, fun j hj => by omega, fun j hj hj' => by omega⟩
  obtain rfl | rfl | rfl | rfl : n = 0 ∨ n = 1 ∨ n = 2 ∨ n = 3 := by omega
  · rw [hc, absent 0 (h2 0 (by omega) (by omega)), absent 1 (h2 1 (by omega) (by omega)),
      absent 2 (h2 2 (by omega) (by omega)), if_neg (h2 k (by omega) hk)]
    rfl
  · rw [hc, there 0 (h1 0 (by omega)), absent 1 (h2 1 (by omega) (by omega)), absent 2 (h2 2 (by omega) (by omega))]
    obtain rfl | hk1 : k = 0 ∨ 1 ≤ k := by omega
    · rw [if_pos (h1 0 (by omega))]; rfl
    · rw [if_neg (h2 k hk1 hk)]; simpa using Nat.ne_of_gt hk1
  · rw [hc, there 0 (h1 0 (by omega)), there 1 (h1 1 (by omega)), absent 2 (h2 2 (by omega) (by omega))]
    obtain rfl | rfl | rfl : k = 0 ∨ k = 1 ∨ k = 2 := by omega
    · rw [if_pos (h1 0 (by omega))]; rfl
    · rw [if_pos (h1 1 (by omega))]; rfl
    · rw [if_neg (h2 2 (by omega) (by omega))]; rfl
  · rw [hc, there 0 (h1 0 (by omega)), there 1 (h1 1 (by omega)), there 2 (h1 2 (by omega)), if_pos (h1 k hk)]
    obtain rfl | rfl | rfl : k = 0 ∨ k = 1 ∨ k = 2 := by omega
    all_goals rfl

/-- The decoder on the bytes at pc and the machine's fetch read the same instruction. -/
theorem fetchInstr_ok_iff (s : State) (i : Instr) : s.fetchInstr = .ok i ↔ decode s.bytesAtPc = .ok i := by
  have key : ∀ k b, k < 3 → (s.memRead (s.pc.toNat + k) = .ok b ↔ byteAt s.bytesAtPc k = .ok b) := by
    intro k b hk
    simp only [byteAt, bytesAtPc_get s hk, State.memRead]
    by_cases h : s.pc.toNat + k < 256 <;> simp [h]
  have same : ∀ n, n ≤ 2 → ∀ bs,
      (readOperands (fun k => s.memRead (s.pc.toNat + k)) 1 n = .ok bs ↔
        readOperands (byteAt s.bytesAtPc) 1 n = .ok bs) := by
    intro n hn bs
    have k1 := fun b => key 1 b (by omega)
    have k2 := fun b => key 2 b (by omega)
    obtain rfl | rfl | rfl : n = 0 ∨ n = 1 ∨ n = 2 := by omega
    · simp only [readOperands, Except.ok.injEq]
    all_goals
      simp only [readOperands]
      rcases h1 : s.memRead (s.pc.toNat + 1) with e | b <;> rcases h1' : byteAt s.bytesAtPc 1 with e' | b' <;>
        rcases h2 : s.memRead (s.pc.toNat + 2) with e2 | c <;> rcases h2' : byteAt s.bytesAtPc 2 with e2' | c' <;>
        simp_all
  rcases h0 : s.memRead (s.pc.toNat + 0) with e | op
  · have h0' : ∀ b, byteAt s.bytesAtPc 0 ≠ .ok b := fun b hb => by
      rw [(key 0 b (by omega)).2 hb] at h0; cases h0
    rcases h0'' : byteAt s.bytesAtPc 0 with e' | b
    · simp only [Nat.add_zero] at h0
      simp [State.fetchInstr, decode, decodeFrom, h0, h0'']
    · exact absurd h0'' (h0' b)
  · have h0' := (key 0 op (by omega)).1 h0
    unfold State.fetchInstr decode
    rw [decodeFrom_of_opcode h0, decodeFrom_of_opcode h0']
    rcases ho : decodeOpcode op with _ | o
    · simp
    · have hn := operandCount_le o
      rw [code_of_decodeOpcode ho] at hn
      have hs := same _ hn
      simp only
      rcases h : readOperands (fun k => s.memRead (s.pc.toNat + k)) 1 (operandCount op) with e | bs
      · rcases h' : readOperands (byteAt s.bytesAtPc) 1 (operandCount op) with e' | bs'
        · simp
        · rw [(hs bs').2 h'] at h; cases h
      · rw [(hs bs).1 h]; simp

/-- Everything the fetch can do, in the order of its checks (40_engine.md R82 to R84). -/
theorem fetchInstr_cases (s : State) :
    (255 < s.pc.toNat ∧ s.fetchInstr = .error (.addressFault s.pc.toNat)) ∨
    (s.pc.toNat ≤ 255 ∧ decodeOpcode (s.mem.read s.pc.toNat) = none ∧
      s.fetchInstr = .error (.illegalInstruction (s.mem.read s.pc.toNat))) ∨
    (∃ o, s.pc.toNat ≤ 255 ∧ decodeOpcode (s.mem.read s.pc.toNat) = some o ∧
      ((∃ k, 1 ≤ k ∧ k ≤ operandCount o.code ∧ s.pc.toNat + (k - 1) ≤ 255 ∧ 255 < s.pc.toNat + k ∧
          s.fetchInstr = .error (.addressFault (s.pc.toNat + k))) ∨
        (s.pc.toNat + operandCount o.code ≤ 255 ∧
          s.fetchInstr =
            .ok (o.assemble ((List.range (operandCount o.code)).map fun k => s.mem.read (s.pc.toNat + 1 + k)))))) := by
  by_cases hp : s.pc.toNat ≤ 255
  · refine .inr ?_
    have h0 : s.memRead (s.pc.toNat + 0) = .ok (s.mem.read s.pc.toNat) := memRead_of_lt (by omega)
    rcases ho : decodeOpcode (s.mem.read s.pc.toNat) with _ | o
    · refine .inl ⟨hp, rfl, ?_⟩
      unfold State.fetchInstr
      rw [decodeFrom_of_opcode h0, ho]
    · refine .inr ⟨o, hp, rfl, ?_⟩
      have hf : s.fetchInstr =
          match readOperands (fun i => s.memRead (s.pc.toNat + i)) 1 (operandCount o.code) with
          | .error e => .error e
          | .ok operands => .ok (o.assemble operands) := by
        unfold State.fetchInstr
        rw [decodeFrom_of_opcode h0, ho, code_of_decodeOpcode ho]
        cases readOperands (fun i => s.memRead (s.pc.toNat + i)) 1 (operandCount (s.mem.read s.pc.toNat)) <;> rfl
      by_cases hfit : s.pc.toNat + operandCount o.code ≤ 255
      · refine .inr ⟨hfit, ?_⟩
        have hr := readOperands_ok (read := fun i => s.memRead (s.pc.toNat + i)) (first := 1)
          (bs := (List.range (operandCount o.code)).map fun k => s.mem.read (s.pc.toNat + 1 + k)) (by
            intro k hk
            simp only [List.length_map, List.length_range] at hk
            simp only [List.getElem_map, List.getElem_range]
            rw [Nat.add_assoc]
            exact memRead_of_lt (by omega))
        simp only [List.length_map, List.length_range] at hr
        rw [hf, hr]
      · refine .inl ⟨256 - s.pc.toNat, by omega, by omega, by omega, by omega, ?_⟩
        rw [hf, readOperands_error (k := 255 - s.pc.toNat)
          (e := .addressFault (s.pc.toNat + (256 - s.pc.toNat))) (by omega)]
        · intro j hj
          exact ⟨_, memRead_of_lt (by omega)⟩
        · rw [show s.pc.toNat + (1 + (255 - s.pc.toNat)) = s.pc.toNat + (256 - s.pc.toNat) by omega]
          exact memRead_of_ge (by omega)
  · refine .inl ⟨by omega, ?_⟩
    have h0 : s.memRead (s.pc.toNat + 0) = .error (.addressFault s.pc.toNat) := memRead_of_ge (by omega)
    simp only [State.fetchInstr, decodeFrom, h0]

end Sys2Proof.Machine
end

