-- ==== Sys2Proof/Laws/PerInstr.lean ====
section
/-! SUPPORT. Statements made once per constructor of Instr. -/

namespace Sys2Proof.Laws.EncodedLength

/-- The encoding has the length the opcode byte alone tells, one more than `opcode[7:6]`, and that is 1, 2 or 3
(30_encoding.md R60, R71). -/
def Statement (i : Instr) : Prop :=
  (encode i).length = operandCount i.opcode.code + 1 ∧ i.length = (encode i).length ∧ (encode i).length ≤ 3

/-- The statement follows from the operand count of the opcode and the number of operand bytes. -/
theorem of_count {i : Instr} {n : Nat} (h : operandCount i.opcode.code = n) (h' : i.operands.length = n)
    (hn : n ≤ 2) : Statement i := by
  refine ⟨?_, ?_, ?_⟩ <;> simp only [encode, Instr.length, List.length_cons] <;> omega

theorem hlt : Statement .hlt := of_count (by decide : operandCount Opcode.hlt.code = 0) rfl (by decide)
theorem ldi (r imm : Byte) : Statement (.ldi r imm) := of_count (by decide : operandCount Opcode.ldi.code = 2) rfl (by decide)
theorem prn (r : Byte) : Statement (.prn r) := of_count (by decide : operandCount Opcode.prn.code = 1) rfl (by decide)
theorem pra (r : Byte) : Statement (.pra r) := of_count (by decide : operandCount Opcode.pra.code = 1) rfl (by decide)
theorem add (rA rB : Byte) : Statement (.add rA rB) := of_count (by decide : operandCount Opcode.add.code = 2) rfl (by decide)
theorem mul (rA rB : Byte) : Statement (.mul rA rB) := of_count (by decide : operandCount Opcode.mul.code = 2) rfl (by decide)
theorem inc (r : Byte) : Statement (.inc r) := of_count (by decide : operandCount Opcode.inc.code = 1) rfl (by decide)
theorem dec (r : Byte) : Statement (.dec r) := of_count (by decide : operandCount Opcode.dec.code = 1) rfl (by decide)
theorem cmp (rA rB : Byte) : Statement (.cmp rA rB) := of_count (by decide : operandCount Opcode.cmp.code = 2) rfl (by decide)
theorem push (r : Byte) : Statement (.push r) := of_count (by decide : operandCount Opcode.push.code = 1) rfl (by decide)
theorem pop (r : Byte) : Statement (.pop r) := of_count (by decide : operandCount Opcode.pop.code = 1) rfl (by decide)
theorem call (r : Byte) : Statement (.call r) := of_count (by decide : operandCount Opcode.call.code = 1) rfl (by decide)
theorem ret : Statement .ret := of_count (by decide : operandCount Opcode.ret.code = 0) rfl (by decide)
theorem jmp (r : Byte) : Statement (.jmp r) := of_count (by decide : operandCount Opcode.jmp.code = 1) rfl (by decide)
theorem jeq (r : Byte) : Statement (.jeq r) := of_count (by decide : operandCount Opcode.jeq.code = 1) rfl (by decide)
theorem jne (r : Byte) : Statement (.jne r) := of_count (by decide : operandCount Opcode.jne.code = 1) rfl (by decide)
theorem st (rA rB : Byte) : Statement (.st rA rB) := of_count (by decide : operandCount Opcode.st.code = 2) rfl (by decide)

end Sys2Proof.Laws.EncodedLength
end

