-- ==== Sys2Proof/Tests/Slice0.lean ====
section
/-! SUPPORT. The model's own tests: decodings written out from the spec's table, vectors of spec/95_test_vectors.md, and for
every obligation with hypotheses a state that meets them. -/

namespace Sys2Proof.Tests.Slice0

open Sys2Proof Sys2Proof.Machine

/-- A RUNNING core, everything else at reset, with these bytes at this pc. -/
def at_ (pc : PcWord) (bytes : List Byte) : State := State.placeAtPc { State.reset with pc := pc } bytes

/-- The same with x[0], x[1] and x[7] set. -/
def regs (s : State) (x0 x1 sp : Byte) : State := ((s.setReg 0 x0).setReg 1 x1).setReg 7 sp

/-- The state a step answers, if it answers one. -/
def next (s : State) : Option State :=
  match step s with
  | .next t => some t
  | .fault _ => none
  | .refused _ => none

/-- The fault record after a step that FAULTED. -/
def faultAfter (s : State) : Option (FaultCode × Nat × Nat) :=
  (next s).bind fun t =>
    if t.status = .faulted then some (t.faultCode, t.faultPc.toNat, t.faultInfo.toNat) else none

/-! ## Well-formedness: each check refuses an ill-formed term -/

theorem test_wellFormed_refuses_operand1 : (Instr.ldi 8 0).wellFormed = false := by decide
theorem test_wellFormed_refuses_operand2 : (Instr.st 7 8).wellFormed = false := by decide
theorem test_wellFormed_accepts : (Instr.add 7 7).wellFormed = true ∧ (Instr.ldi 7 255).wellFormed = true := by decide

/-! ## Decoding: words written out from 30_encoding.md R63 and R76 -/

theorem test_decode_hlt_ldi :
    decode [0b00000001] = .ok .hlt ∧ decode [0b10000010, 0b00000000, 0b00000101] = .ok (.ldi 0 5) := by decide
theorem test_decode_output :
    decode [0b01000111, 0b00000011] = .ok (.prn 3) ∧ decode [0b01001000, 0b00000010] = .ok (.pra 2) := by decide
theorem test_decode_alu_binary :
    decode [0b10100000, 0b00000001, 0b00000010] = .ok (.add 1 2) ∧
      decode [0b10100010, 0b00000011, 0b00000100] = .ok (.mul 3 4) ∧
      decode [0b10100111, 0b00000101, 0b00000110] = .ok (.cmp 5 6) := by decide
theorem test_decode_alu_unary :
    decode [0b01100101, 0b00000111] = .ok (.inc 7) ∧ decode [0b01100110, 0b00001000] = .ok (.dec 8) := by decide
theorem test_decode_stack :
    decode [0b01000101, 0b00000001] = .ok (.push 1) ∧ decode [0b01000110, 0b00000010] = .ok (.pop 2) := by decide
theorem test_decode_call_ret :
    decode [0b01010000, 0b00000001] = .ok (.call 1) ∧ decode [0b00010001] = .ok .ret := by decide
theorem test_decode_jumps :
    decode [0b01010100, 0b00000010] = .ok (.jmp 2) ∧ decode [0b01010101, 0b00000001] = .ok (.jeq 1) ∧
      decode [0b01010110, 0b00000011] = .ok (.jne 3) := by decide
theorem test_decode_store : decode [0b10000100, 0b00000110, 0b00000101] = .ok (.st 6 5) := by decide
theorem test_decode_rejects :
    decode [0xC0, 0x00, 0x00] = .error (.illegalOpcode 0xC0) ∧ decode [0xA1, 0x00, 0x00] = .error (.illegalOpcode 0xA1) ∧
      decode [] = .error (.missingByte 0) ∧ decode [0x82, 0x00] = .error (.missingByte 2) := by decide
/-- A table word: the first byte is bits 7..0, and bits above nbits are 0. -/
theorem test_table_words :
    decodeTableWord 8 0x01 = some .hlt ∧ decodeTableWord 24 0x050082 = some (.ldi 0 5) ∧
      decodeTableWord 8 0x0582 = some (.ldi 0 0) ∧ decodeTableWord 16 0x0147 = some (.prn 1) ∧
      decodeTableWord 8 0x00 = none := by decide
theorem test_withFetchWord_runs_it :
    (next (State.reset.withFetchWord 24 0x2A0382)).map (fun t => (t.x[3], t.pc.toNat)) = some (42, 3) := by decide

/-! ## One step each: spec/95_test_vectors.md section 2, the vector's name in the theorem's -/

theorem test_E4_hlt_at_255 :
    (next (at_ 255 [0x01])).map (fun t => (t.status, t.pc.toNat)) = some (.halted, 256) := by decide
theorem test_H1_hlt : (next (at_ 0 [0x01])).map (fun t => (t.status, t.pc.toNat)) = some (.halted, 1) := by decide
theorem test_H2_ldi_sp : (next (at_ 0 [0x82, 0x07, 0x00])).map (fun t => (t.x[7], t.pc.toNat)) = some (0, 3) := by decide
theorem test_E9_ldi_ends_at_255 :
    (next (at_ 253 [0x82, 0x00, 0x05])).map (fun t => (t.x[0], t.pc.toNat)) = some (5, 256) := by decide
theorem test_O2_prn :
    (next (regs (at_ 0 [0x47, 0x00]) 255 0 244)).map (fun t => (t.out, t.pc.toNat)) = some ([⟨.dec, 255⟩], 2) := by decide
theorem test_O3_pra :
    (next (regs (at_ 0 [0x48, 0x01]) 0 65 244)).map (fun t => (t.out, t.pc.toNat)) = some ([⟨.char, 65⟩], 2) := by decide
theorem test_A1_add_wraps :
    (next (regs (at_ 0 [0xA0, 0x00, 0x01]) 200 100 244)).map (fun t => (t.x[0], t.x[1], t.pc.toNat)) = some (44, 100, 3) := by
  decide
theorem test_A3_add_same_register :
    (next (regs (at_ 0 [0xA0, 0x00, 0x00]) 128 0 244)).map (fun t => t.x[0]) = some 0 := by decide
theorem test_A6_mul_low_byte :
    (next (regs (at_ 0 [0xA2, 0x00, 0x01]) 255 255 244)).map (fun t => (t.x[0], t.x[1])) = some (1, 255) := by decide
theorem test_A8_mul : (next (regs (at_ 0 [0xA2, 0x00, 0x01]) 8 9 244)).map (fun t => t.x[0]) = some 72 := by decide
theorem test_A17_inc_sp : (next (regs (at_ 0 [0x65, 0x07]) 0 0 255)).map (fun t => (t.x[7], t.pc.toNat)) = some (0, 2) := by
  decide
theorem test_A16_dec_wraps : (next (at_ 0 [0x66, 0x00])).map (fun t => t.x[0]) = some 255 := by decide
theorem test_A10_cmp_unsigned_less :
    (next (regs (at_ 0 [0xA7, 0x00, 0x01]) 0 255 244)).map (fun t => t.flags) = some ⟨false, true, false⟩ := by decide
theorem test_A12_cmp_unsigned_greater :
    (next (regs (at_ 0 [0xA7, 0x00, 0x01]) 128 127 244)).map (fun t => t.flags) = some ⟨false, false, true⟩ := by decide
theorem test_K4_push_r7 :
    (next (at_ 0 [0x45, 0x07])).map (fun t => (t.x[7], t.mem.read 243, t.pc.toNat)) = some (243, 244, 2) := by decide
theorem test_K2_push_overflow : faultAfter (regs (at_ 0 [0x45, 0x00]) 0 0 0) = some (.stackFault, 0, 0) := by decide
theorem test_K9_pop_r7 :
    (next (regs { at_ 0 [0x46, 0x07] with mem := [(0, 0x46), (1, 0x07), (243, 100)] } 0 0 243)).map
      (fun t => (t.x[7], t.mem.read 243)) = some (100, 100) := by decide
theorem test_S9_pop_empty : faultAfter (at_ 0 [0x46, 0x01]) = some (.stackFault, 0, 244) := by decide
theorem test_C4_call_r7 :
    (next (at_ 0 [0x50, 0x07])).map (fun t => (t.x[7], t.mem.read 243, t.pc.toNat)) = some (243, 2, 244) := by decide
theorem test_C2_call_at_254 : faultAfter (regs (at_ 254 [0x50, 0x01]) 0 20 244) = some (.addressFault, 254, 256) := by decide
theorem test_C5_ret :
    (next (regs { at_ 0 [0x11] with mem := [(0, 0x11), (243, 12)] } 0 0 243)).map (fun t => (t.x[7], t.pc.toNat)) =
      some (244, 12) := by decide
theorem test_C6_ret_empty : faultAfter (at_ 0 [0x11]) = some (.stackFault, 0, 244) := by decide
theorem test_C7_jmp : (next (at_ 5 [0x54, 0x02])).map (fun t => t.pc.toNat) = some 0 := by decide
theorem test_C9_jeq_taken :
    (next (regs { at_ 20 [0x55, 0x01] with flags := ⟨true, false, false⟩ } 0 40 244)).map (fun t => t.pc.toNat) = some 40 := by
  decide
theorem test_C14_jeq_not_taken_at_254 : (next (regs (at_ 254 [0x55, 0x01]) 0 40 244)).map (fun t => t.pc.toNat) = some 256 := by
  decide
theorem test_C12_jne_not_taken :
    (next (regs { at_ 20 [0x56, 0x01] with flags := ⟨true, false, false⟩ } 0 40 244)).map (fun t => t.pc.toNat) = some 22 := by
  decide
theorem test_C15_jne_before_cmp : (next (regs (at_ 20 [0x56, 0x01]) 0 40 244)).map (fun t => t.pc.toNat) = some 40 := by decide
theorem test_T1_st :
    (next (regs (at_ 0 [0x84, 0x00, 0x01]) 100 7 244)).map (fun t => (t.mem.read 100, t.pc.toNat)) = some (7, 3) := by decide
theorem test_T4_st_over_itself :
    (next (regs (at_ 10 [0x84, 0x00, 0x01]) 10 1 244)).map (fun t => (t.mem.read 10, t.pc.toNat)) = some (1, 13) := by decide

/-! ## Faults and their priority -/

theorem test_E1_E2_E3_operand_fetch :
    faultAfter (at_ 255 [0x47]) = some (.addressFault, 255, 256) ∧
      faultAfter (at_ 254 [0x82, 0x00]) = some (.addressFault, 254, 256) ∧
      faultAfter (at_ 255 [0x82]) = some (.addressFault, 255, 256) := by decide
theorem test_E5_illegal_before_operands : faultAfter (at_ 255 [0x00]) = some (.illegalInstruction, 255, 0) := by decide
theorem test_E6_fetch_at_256 : faultAfter (at_ 256 []) = some (.addressFault, 256, 256) := by decide
theorem test_A4_operand1_first : faultAfter (at_ 0 [0xA0, 0x09, 0x0A]) = some (.addressFault, 0, 9) := by decide
theorem test_K10_register_before_stack : faultAfter (at_ 0 [0x46, 0x09]) = some (.addressFault, 0, 9) := by decide
theorem test_C13_jeq_operand_checked : faultAfter (at_ 20 [0x55, 0x08]) = some (.addressFault, 20, 8) := by decide
theorem test_A14_faulting_cmp_keeps_flags :
    (next { at_ 0 [0xA7, 0x00, 0x08] with flags := ⟨false, true, false⟩ }).map (fun t => (t.flags, t.status)) =
      some (⟨false, true, false⟩, .faulted) := by decide

/-! ## The host's side -/

theorem test_no_step_from_reset : next State.reset = none := by decide
theorem test_boot_runs_from_zero :
    ((State.reset.hostBoot (some ['1', '\n'])).1).status = .running ∧ next (State.reset.hostBoot (some ['1'])).1 =
      some { State.reset with status := .halted, pc := 1, mem := [(0, 1)] } := by decide
theorem test_loader_failure_stays_idle : State.reset.hostBoot none = (State.reset, some .missingSource) := by decide
theorem test_debug_trace_at_255 : (at_ 255 [0x01]).debugTrace.bytes = [some 1, none, none] := by decide

/-! ## Witnesses: a state and operands that meet the hypotheses of each obligation -/

theorem witness_DecodedBytesAreTheEncoding : decode [0x82, 0x00, 0x05, 0x99] = .ok (.ldi 0 5) := by decide
theorem witness_OpcodeByteMatchedWhole :
    decodeOpcode 0x82 = some .ldi ∧ Opcode.ldi.code = 0x82 ∧ 192 ≤ (0xC0 : Byte).toNat ∧ 192 ≤ (0xFF : Byte).toNat := by decide
theorem witness_LoadWritesImageFromZero :
    State.reset.mem.wf ∧ State.reset.status = .idle ∧ [(1 : Byte), 2, 3].length ≤ 256 ∧ 2 < [(1 : Byte), 2, 3].length ∧
      [(1 : Byte), 2, 3].length ≤ 3 ∧ (State.reset.hostLoad [1, 2, 3]).isSome := by decide
theorem witness_LoadWritesImageFromZero_full : (List.replicate 256 (1 : Byte)).length ≤ 256 := by
  rw [List.length_replicate]
theorem witness_StartAndLoadOnlyFromIdle :
    State.reset.status = .idle ∧ (at_ 0 []).status ≠ .idle := by decide
theorem witness_StartAndLoadOnlyFromIdle_length : 256 < (List.replicate 257 (1 : Byte)).length := by
  rw [List.length_replicate]; decide
theorem witness_BootOrderRunsTheImage :
    loaderImage (some ['1']) = .ok [1] ∧ loaderImage none = .error .missingSource := by decide
theorem witness_StepRunsTheDecodedInstruction :
    (at_ 253 [0x82, 0x00, 0x05]).status = .running ∧ decode (at_ 253 [0x82, 0x00, 0x05]).bytesAtPc = .ok (.ldi 0 5) := by decide
theorem witness_NoStepOutsideRunning : State.reset.status ≠ .running := by decide
theorem witness_OpcodeFetchPastTheTop : (at_ 256 []).status = .running ∧ 255 < (at_ 256 []).pc.toNat := by decide
theorem witness_IllegalOpcodeStops :
    (at_ 255 [0x00]).status = .running ∧ (at_ 255 [0x00]).pc.toNat ≤ 255 ∧
      decodeOpcode ((at_ 255 [0x00]).mem.read 255) = none := by decide
theorem witness_OperandFetchInOrder_fits :
    (at_ 253 [0x82]).status = .running ∧ (at_ 253 [0x82]).pc.toNat ≤ 255 ∧
      decodeOpcode ((at_ 253 [0x82]).mem.read 253) = some .ldi ∧ 253 + operandCount Opcode.ldi.code ≤ 255 := by decide
theorem witness_OperandFetchInOrder_missing :
    decodeOpcode ((at_ 254 [0x82]).mem.read 254) = some .ldi ∧ 2 ≤ operandCount Opcode.ldi.code ∧ 254 + (2 - 1) ≤ 255 ∧
      255 < 254 + 2 ∧ decodeOpcode ((at_ 255 [0x47]).mem.read 255) = some .prn ∧ 1 ≤ operandCount Opcode.prn.code ∧
      255 + (1 - 1) ≤ 255 ∧ 255 < 255 + 1 := by decide
theorem witness_PcUpdateNeutralOrTransfer :
    decode (at_ 253 [0x82]).bytesAtPc = .ok (.ldi 0 0) ∧ (next (at_ 253 [0x82])).map (·.status) = some .running ∧
      (Instr.opcode (.ldi 0 0)).pcControlling = false ∧ decode (at_ 254 [0x54]).bytesAtPc = .ok (.jmp 0) ∧
      (next (at_ 254 [0x54])).map (·.status) = some .running ∧ (Instr.opcode (.jmp 0)).pcControlling = true := by decide
theorem witness_HltHaltsForGood :
    (at_ 255 [0x01]).status = .running ∧ (next (at_ 255 [0x01])).map (·.status) = some .halted ∧
      (next (at_ 0 [0x11])).map (·.status) = some .faulted ∧ (State.reset.halt).status = .halted := by decide
theorem witness_PushStoresBelowTheStackPointer :
    (regs (at_ 0 []) 0 0 1).x[7] ≠ 0 ∧ (regs (at_ 0 []) 0 0 0).x[7] = 0 := by decide
theorem witness_PopLoadsTheTopOfTheStack :
    (regs (at_ 0 []) 0 0 243).x[7].toNat < 244 ∧ 244 ≤ (regs (at_ 0 []) 0 0 244).x[7].toNat := by decide
theorem witness_CallPushesTheReturnAddress :
    (at_ 253 []).pc.toNat ≤ 253 ∧ (regs (at_ 253 []) 0 0 1).x[7] ≠ 0 ∧ (at_ 254 []).pc.toNat = 254 ∧
      (regs (at_ 253 []) 0 0 0).x[7] = 0 := by decide
theorem witness_RetPopsThePc :
    (regs (at_ 0 []) 0 0 0).x[7].toNat < 244 ∧ 244 ≤ (regs (at_ 0 []) 0 0 255).x[7].toNat := by decide
theorem witness_RegisterOperandsCheckedFirst :
    8 ≤ (8 : Byte).toNat ∧ (Instr.add 7 8).regOperands.find? (fun r => decide (8 ≤ r.toNat)) = some 8 ∧
      (Instr.cmp 255 8).regOperands.find? (fun r => decide (8 ≤ r.toNat)) = some 255 := by decide
theorem witness_OnlyCmpWritesFlags :
    (∀ rA rB, Instr.add 0 1 ≠ .cmp rA rB) ∧ ∃ t, exec (.add 0 1) (at_ 0 []) = .next t := ⟨nofun, _, rfl⟩
theorem witness_UnwrittenRegistersKept :
    (∃ t, exec (.pop 1) (regs (at_ 0 []) 0 0 243) = .next t) ∧ regByte 2 ∉ (Instr.pop 1).writtenRegs :=
  ⟨⟨_, rfl⟩, by decide⟩
theorem witness_NonStoringInstructionsKeepMemory :
    (∀ rA rB, Instr.pop 1 ≠ .st rA rB) ∧ (∀ r, Instr.pop 1 ≠ .push r) ∧ (∀ r, Instr.pop 1 ≠ .call r) ∧
      ∃ t, exec (.pop 1) (regs (at_ 0 []) 0 0 243) = .next t := ⟨nofun, nofun, nofun, _, rfl⟩
theorem witness_StoresChangeOneByte_st :
    (∃ t, exec (.st 0 1) (regs (at_ 0 []) 100 7 244) = .next t) ∧
      ∀ a, regIdx 0 = .ok a → 101 ≠ (regs (at_ 0 []) 100 7 244).storeAddress a :=
  ⟨⟨_, rfl⟩, fun a h => by obtain rfl : (0 : Fin 8) = a := Except.ok.inj h
                           decide⟩
theorem witness_StoresChangeOneByte_stack :
    (∃ t, exec (.push 0) (at_ 0 []) = .next t) ∧ (∃ t, exec (.call 0) (at_ 0 []) = .next t) ∧
      ∀ slot, pushSlot (at_ 0 []).sp = .ok slot → 244 ≠ slot.toNat :=
  ⟨⟨_, rfl⟩, ⟨_, rfl⟩, fun slot h => by obtain rfl : (243 : Byte) = slot := Except.ok.inj h
                                        decide⟩
theorem witness_OutputGrowsByTheInstructionsEvents :
    (∃ t, exec (.prn 0) (at_ 0 []) = .next t) ∧ (at_ 0 []).instrFault (.prn 0) = none ∧
      (at_ 0 []).instrFault (.prn 8) ≠ none := ⟨⟨_, rfl⟩, by decide, by decide⟩
theorem witness_EveryInstructionCompletesOrTakesItsFault :
    (at_ 0 []).instrFault (.pop 1) = some (.stackFault 244) ∧ (regs (at_ 0 []) 0 0 243).instrFault (.pop 1) = none ∧
      (at_ 254 []).instrFault (.call 1) = some (.addressFault 256) ∧ (at_ 253 []).instrFault (.call 1) = none := by decide
theorem witness_FaultsArePrecise :
    (at_ 0 [0x11]).status = .running ∧ (next (at_ 0 [0x11])).map (·.status) = some .faulted := by decide
theorem witness_FaultsByPriority :
    (at_ 256 []).firstFault = some (.addressFault 256) ∧ (at_ 255 [0x00]).firstFault = some (.illegalInstruction 0) ∧
      (at_ 255 [0x82]).firstFault = some (.addressFault 256) ∧ (at_ 254 [0x82]).firstFault = some (.addressFault 256) ∧
      (at_ 0 [0x46, 9]).firstFault = some (.addressFault 9) ∧ (at_ 254 [0x50]).firstFault = some (.addressFault 256) ∧
      (at_ 0 [0x11]).firstFault = some (.stackFault 244) ∧ (at_ 255 [0x01]).firstFault = none := by decide
theorem witness_UnsupportedOperationUnreachable :
    (at_ 255 [0x82]).status = .running ∧ (next (at_ 255 [0x82])).map (·.status) = some .faulted := by decide
theorem witness_EveryCellReadableAndWritable : (at_ 0 [0x11]).mem.wf ∧ 255 ≤ 255 ∧ 255 < 256 := by decide
theorem witness_NextFetchSeesTheStore_st :
    (at_ 0 []).mem.wf ∧ (∃ t, exec (.st (regByte 0) (regByte 1)) (regs (at_ 0 []) 3 7 244) = .next t) ∧
      (3 : PcWord).toNat = (regs (at_ 0 []) 3 7 244).x[0].toNat := ⟨by decide, ⟨_, rfl⟩, by decide⟩
theorem witness_NextFetchSeesTheStore_stack :
    (∃ t, exec (.push (regByte 0)) (regs (at_ 0 []) 3 7 3) = .next t) ∧
      (∃ t, exec (.call (regByte 0)) (regs (at_ 0 []) 2 7 3) = .next t) ∧ (regs (at_ 0 []) 3 7 3).x[7] ≠ 0 ∧
      (2 : PcWord).toNat + 1 = (regs (at_ 0 []) 3 7 3).x[7].toNat := ⟨⟨_, rfl⟩, ⟨_, rfl⟩, by decide, by decide⟩
theorem witness_PushThenPopRestores :
    (at_ 0 []).mem.wf ∧ (regs (at_ 0 []) 0 0 1).x[7] ≠ 0 ∧ (regs (at_ 0 []) 0 0 244).x[7].toNat ≤ 244 ∧
      245 ≤ (regs (at_ 0 []) 0 0 245).x[7].toNat := by decide
theorem witness_CallThenRetReturns :
    (at_ 253 []).mem.wf ∧ (at_ 253 []).pc.toNat ≤ 253 ∧ (at_ 253 []).x[7] ≠ 0 ∧ (at_ 253 []).x[7].toNat ≤ 244 := by decide
theorem witness_StackHolds244Bytes :
    (at_ 0 []).status = .running ∧ (at_ 0 []).x[7] = 244 ∧ (List.replicate 244 (0 : Fin 8)).length ≤ 244 ∧
      (List.replicate 245 (0 : Fin 8)).length = 245 :=
  ⟨by decide, by decide, by rw [List.length_replicate], List.length_replicate⟩
theorem witness_JumpToItselfChangesNothing :
    (regs (at_ 5 [0x54, 0x01]) 0 5 244).status = .running ∧
      decode (regs (at_ 5 [0x54, 0x01]) 0 5 244).bytesAtPc = .ok (.jmp (regByte 1)) ∧
      (regs (at_ 5 [0x54, 0x01]) 0 5 244).x[1].setWidth 9 = (regs (at_ 5 [0x54, 0x01]) 0 5 244).pc := by decide
theorem witness_EventsNeverWithdrawn : ∃ t, Sys2Proof.core.run 1 (at_ 0 [0x47, 0x00]) = .next t := ⟨_, rfl⟩
theorem witness_StepKeepsInvariant : (at_ 0 [0x01]).Inv ∧ ∃ t, step (at_ 0 [0x01]) = .next t :=
  ⟨⟨by decide, by decide, by decide, fun _ => ⟨rfl, rfl, rfl⟩, nofun⟩, _, rfl⟩
theorem witness_UnreadStateChangesNothing :
    (at_ 0 [0x56, 0x00]).agree { at_ 0 [0x56, 0x00] with flags := ⟨false, true, false⟩, out := [⟨.dec, 1⟩] } ∧
      (at_ 0 [0x56, 0x00]).status = .running ∧ State.reset.agree { State.reset with flags := ⟨false, false, true⟩ } ∧
      State.reset.status ≠ .running :=
  ⟨⟨rfl, rfl, rfl, rfl, rfl⟩, rfl, ⟨rfl, rfl, rfl, rfl, rfl⟩, nofun⟩

end Sys2Proof.Tests.Slice0
end

/-! ## Scope: how an instruction ends, and every cell of memory (00_scope.md R13, R15; 20_memory.md R40) -/

namespace Sys2Proof.Machine

/-! ### The byte access rules at an address of any size -/

theorem memWrite_of_lt {s : State} {a : Nat} (h : a < 256) (v : Byte) :
    s.memWrite a v = .ok { s with mem := s.mem.write a v } := by
  simp [State.memWrite, h]

theorem memWrite_of_ge {s : State} {a : Nat} (h : 256 ≤ a) (v : Byte) :
    s.memWrite a v = .error (.addressFault a) := by
  simp [State.memWrite, Nat.not_lt.2 h]

/-- Settles O41: the access rules split at 256, and the written cell is read back through the canonical form. -/
theorem everyCellReadableAndWritable : Obligations.EveryCellReadableAndWritable := by
  refine ⟨fun s a v hwf ha => ?_, fun s a v ha => ⟨memRead_of_ge ha, memWrite_of_ge ha v⟩, fun _ _ _ => rfl⟩
  have hlt : a < 256 := Nat.lt_succ_of_le ha
  refine ⟨memRead_of_lt hlt, _, memWrite_of_lt hlt v, rfl, ?_, fun a' hne => Memory.read_write_ne v hne⟩
  rw [memRead_of_lt hlt, Memory.read_write_same hwf.1]

/-! ### What the operand check and the pop answer when they pass -/

/-- A register check that passes gives the register the byte numbers. -/
theorem regIdx_ok {b : Byte} {i : Fin 8} (h : regIdx b = .ok i) : i = Fin.ofNat 8 b.toNat := by
  obtain ⟨j, rfl, hj⟩ | ⟨-, he⟩ := regIdx_cases b
  · obtain rfl : j = i := Except.ok.inj (hj.symm.trans h)
    simp
  · rw [he] at h; cases h

/-- A pop that passes gives the byte at the stack pointer. -/
theorem popByte_ok_byte {s t : State} {v : Byte} (h : s.popByte = .ok (v, t)) : v = s.mem.read s.sp.toNat := by
  rw [popByte_eq] at h
  split at h
  · cases h
  · exact (congrArg Prod.fst (Except.ok.inj h)).symm

/-! ### How a handler ends (00_scope.md R15) -/

/-- The way instruction `i` ends when its handler raises nothing: `Transfer` of its target for the PC-controlling
instructions, `Neutral` for the others. -/
def instrEnding (i : Instr) (s : State) : HandlerOutcome :=
  if i.opcode.pcControlling then .transfer (i.target s) else .neutral

/-- A handler that either raises or ends with `e`. -/
def EndsWith (e : HandlerOutcome) (r : Raises (State × HandlerOutcome)) : Prop :=
  ∀ u o, r = .ok (u, o) → o = e

theorem EndsWith.of_ok {e : HandlerOutcome} {u : State} : EndsWith e (.ok (u, e)) := by
  rintro _ _ ⟨⟩; rfl

/-- A check that comes first can only raise, so the rest of the handler decides how it ends. -/
theorem EndsWith.of_bind {α : Type} {e : HandlerOutcome} {x : Raises α}
    {f : α → Raises (State × HandlerOutcome)} (h : ∀ a, x = .ok a → EndsWith e (f a)) : EndsWith e (x >>= f) := by
  cases x with
  | error _ => rintro _ _ ⟨⟩
  | ok a => exact h a rfl

theorem aluBinary_endsWith (op : AluOp) (rA rB : Byte) (s : State) : EndsWith .neutral (aluBinary op rA rB s) :=
  .of_bind fun _ _ => .of_bind fun _ _ => .of_bind fun _ _ => .of_ok

theorem aluUnary_endsWith (op : AluOp) (r : Byte) (s : State) : EndsWith .neutral (aluUnary op r s) :=
  .of_bind fun _ _ => .of_bind fun _ _ => .of_ok

theorem printReg_endsWith (kind : OutKind) (r : Byte) (s : State) : EndsWith .neutral (printReg kind r s) :=
  .of_bind fun _ _ => .of_ok

theorem jumpIf_endsWith (taken : Bool) (r : Byte) (s : State) :
    EndsWith (.transfer (if taken then byteToPc (s.reg (Fin.ofNat 8 r.toNat)) else s.pc + 2)) (jumpIf taken r s) :=
  .of_bind fun i hi => by
    rw [← regIdx_ok hi]
    exact .of_ok

/-- Every instruction is a handler that ends in its own way, completed over its own operand bytes. -/
theorem exec_eq_complete (i : Instr) (s : State) :
    ∃ r, exec i s = s.complete i.operands.length r ∧ EndsWith (instrEnding i s) r := by
  cases i with
  | hlt => exact ⟨_, rfl, .of_ok⟩
  | ldi r imm => exact ⟨_, rfl, .of_bind fun _ _ => .of_ok⟩
  | prn r => exact ⟨_, rfl, printReg_endsWith .dec r s⟩
  | pra r => exact ⟨_, rfl, printReg_endsWith .char r s⟩
  | add rA rB => exact ⟨_, rfl, aluBinary_endsWith .add rA rB s⟩
  | mul rA rB => exact ⟨_, rfl, aluBinary_endsWith .mul rA rB s⟩
  | inc r => exact ⟨_, rfl, aluUnary_endsWith .inc r s⟩
  | dec r => exact ⟨_, rfl, aluUnary_endsWith .dec r s⟩
  | cmp rA rB => exact ⟨_, rfl, aluBinary_endsWith .cmp rA rB s⟩
  | push r => exact ⟨_, rfl, .of_bind fun _ _ => .of_bind fun _ _ => .of_ok⟩
  | pop r => exact ⟨_, rfl, .of_bind fun _ _ => .of_bind fun _ _ => .of_ok⟩
  | call r =>
    refine ⟨_, rfl, .of_bind fun i hi => .of_bind fun _ _ => .of_bind fun _ _ => ?_⟩
    rw [regIdx_ok hi]
    exact .of_ok
  | ret =>
    refine ⟨_, rfl, .of_bind fun ⟨v, t⟩ h => ?_⟩
    rw [popByte_ok_byte h]
    exact .of_ok
  | jmp r => exact ⟨_, rfl, jumpIf_endsWith true r s⟩
  | jeq r => exact ⟨_, rfl, jumpIf_endsWith s.flags.equal r s⟩
  | jne r =>
    refine ⟨_, rfl, ?_⟩
    have h := jumpIf_endsWith (!s.flags.equal) r s
    simp only [Bool.not_eq_true', ← Bool.not_eq_true, ite_not] at h
    exact h
  | st rA rB => exact ⟨_, rfl, .of_bind fun _ _ => .of_bind fun _ _ => .of_bind fun _ _ => .of_ok⟩

/-- The PC update of an instruction that does not fault (40_engine.md R90). -/
theorem exec_pc {i : Instr} {s t : State} (h : exec i s = .next t) (hok : t.status ≠ .faulted) :
    t.pc = s.nextPc i.operands.length (instrEnding i s) := by
  obtain ⟨r, hr, hend⟩ := exec_eq_complete i s
  obtain ⟨f, -, rfl⟩ | ⟨u, o, ho, rfl⟩ := (complete_cases s t _ r).1 (hr ▸ h)
  · exact absurd rfl hok
  · rw [hend u o ho]

/-! ### The step of a decoded instruction -/

/-- A RUNNING core executes the instruction its bytes at pc decode to. -/
theorem step_of_decode {s : State} {i : Instr} (hrun : s.status = .running) (hdec : decode s.bytesAtPc = .ok i) :
    step s = exec i s := by
  rw [step, nextInstr_running hrun, (fetchInstr_ok_iff s i).2 hdec]

/-- A decoded instruction lies wholly in memory. -/
theorem pc_add_operands_le_of_decode {s : State} {i : Instr} (hdec : decode s.bytesAtPc = .ok i) :
    s.pc.toNat + i.operands.length ≤ 255 := by
  have hf := (fetchInstr_ok_iff s i).2 hdec
  obtain ⟨-, he⟩ | ⟨-, -, he⟩ | ⟨o, -, -, ⟨k, -, -, -, -, he⟩ | ⟨hfit, hok⟩⟩ := fetchInstr_cases s
  · rw [he] at hf; cases hf
  · rw [he] at hf; cases hf
  · rw [he] at hf; cases hf
  · rw [hok] at hf
    rw [← Except.ok.inj hf, assemble_operands_length]
    exact hfit

/-- Settles O16: the pc is the engine's update of the instruction's ending, and `pc + 1 + n` of a decoded instruction is
too small to wrap. -/
theorem pcUpdateNeutralOrTransfer : Obligations.PcUpdateNeutralOrTransfer := by
  intro s t i hrun hdec hstep hok
  have hpc : t.pc = s.nextPc i.operands.length (instrEnding i s) := exec_pc (step_of_decode hrun hdec ▸ hstep) hok
  have hle := pc_add_operands_le_of_decode hdec
  constructor
  · intro hneutral
    have hend : instrEnding i s = .neutral := by simp [instrEnding, hneutral]
    calc t.pc.toNat = (s.pcPlus (1 + i.operands.length)).toNat := by rw [hpc, hend]; rfl
      _ = s.pc.toNat + (1 + i.operands.length) := pcPlus_toNat (by omega)
      _ = s.pc.toNat + 1 + i.operands.length := (Nat.add_assoc ..).symm
  · intro hcontrol
    have hend : instrEnding i s = .transfer (i.target s) := by simp [instrEnding, hcontrol]
    rw [hpc, hend]; rfl

end Sys2Proof.Machine

/-! ## State: console events are never withdrawn (10_state.md R33) -/

namespace Sys2Proof.Machine

/-! ### What the shared operations leave of the console output -/

@[simp] theorem aluWriteBack_out (s : State) (dest : Fin 8) (o : AluOut) : (s.aluWriteBack dest o).out = s.out := by
  obtain ⟨_ | v, _ | f⟩ := o <;> rfl

theorem memWrite_ok_out {s t : State} {a : Nat} {v : Byte} (h : s.memWrite a v = .ok t) : t.out = s.out := by
  obtain ha | ha := Nat.lt_or_ge a 256
  · rw [memWrite_of_lt ha] at h; cases h; rfl
  · rw [memWrite_of_ge ha] at h; cases h

theorem pushByte_ok_out {s t : State} {v : Byte} (h : s.pushByte v = .ok t) : t.out = s.out := by
  rw [pushByte_eq] at h
  split at h
  · cases h
  · cases h; rfl

theorem popByte_ok_out {s : State} {p : Byte × State} (h : s.popByte = .ok p) : p.2.out = s.out := by
  rw [popByte_eq] at h
  split at h
  · cases h
  · cases h; rfl

/-! ### The events of a handler (42_output.md R110, R112) -/

/-- A handler that raises or, begun in `s`, appends the events `es` to the console output. -/
def Appends (s : State) (es : List OutEvent) (r : Raises (State × HandlerOutcome)) : Prop :=
  ∀ u o, r = .ok (u, o) → u.out = s.out ++ es

theorem Appends.of_ok {s u : State} {es : List OutEvent} {o : HandlerOutcome} (h : u.out = s.out ++ es) :
    Appends s es (.ok (u, o)) := by
  rintro _ _ ⟨⟩; exact h

/-- A handler that ends in a state with the same output appends nothing. -/
theorem Appends.of_same {s u : State} {o : HandlerOutcome} (h : u.out = s.out) : Appends s [] (.ok (u, o)) :=
  .of_ok (by simp [h])

/-- A check or an access that comes first can only raise, so the rest of the handler decides what it appends. -/
theorem Appends.of_bind {α : Type} {s : State} {es : List OutEvent} {x : Raises α}
    {f : α → Raises (State × HandlerOutcome)} (h : ∀ a, x = .ok a → Appends s es (f a)) : Appends s es (x >>= f) := by
  cases x with
  | error _ => rintro _ _ ⟨⟩
  | ok a => exact h a rfl

theorem aluBinary_appends (op : AluOp) (rA rB : Byte) (s : State) : Appends s [] (aluBinary op rA rB s) :=
  .of_bind fun _ _ => .of_bind fun _ _ => .of_bind fun _ _ => .of_same (aluWriteBack_out ..)

theorem aluUnary_appends (op : AluOp) (r : Byte) (s : State) : Appends s [] (aluUnary op r s) :=
  .of_bind fun _ _ => .of_bind fun _ _ => .of_same (aluWriteBack_out ..)

theorem jumpIf_appends (taken : Bool) (r : Byte) (s : State) : Appends s [] (jumpIf taken r s) :=
  .of_bind fun _ _ => .of_same rfl

theorem printReg_appends (kind : OutKind) (r : Byte) (s : State) :
    Appends s [⟨kind, s.reg (Fin.ofNat 8 r.toNat)⟩] (printReg kind r s) :=
  .of_bind fun i hi => by
    rw [← regIdx_ok hi]
    exact .of_ok (emit_out ..)

/-- Every instruction is a handler that appends the instruction's own events, completed by the engine. -/
theorem exec_eq_complete_appends (i : Instr) (s : State) :
    ∃ n r, exec i s = s.complete n r ∧ Appends s (i.events s) r := by
  cases i with
  | hlt => exact ⟨_, _, rfl, .of_same (halt_out s)⟩
  | ldi r imm => exact ⟨_, _, rfl, .of_bind fun i _ => .of_same (setReg_out s i imm)⟩
  | prn r => exact ⟨_, _, rfl, printReg_appends .dec r s⟩
  | pra r => exact ⟨_, _, rfl, printReg_appends .char r s⟩
  | add rA rB => exact ⟨_, _, rfl, aluBinary_appends .add rA rB s⟩
  | mul rA rB => exact ⟨_, _, rfl, aluBinary_appends .mul rA rB s⟩
  | inc r => exact ⟨_, _, rfl, aluUnary_appends .inc r s⟩
  | dec r => exact ⟨_, _, rfl, aluUnary_appends .dec r s⟩
  | cmp rA rB => exact ⟨_, _, rfl, aluBinary_appends .cmp rA rB s⟩
  | push r => exact ⟨_, _, rfl, .of_bind fun _ _ => .of_bind fun _ ht => .of_same (pushByte_ok_out ht)⟩
  | pop r => exact ⟨_, _, rfl, .of_bind fun _ _ => .of_bind fun _ ht => .of_same (popByte_ok_out ht)⟩
  | call r =>
    exact ⟨_, _, rfl, .of_bind fun _ _ => .of_bind fun _ _ => .of_bind fun _ ht => .of_same (pushByte_ok_out ht)⟩
  | ret => exact ⟨_, _, rfl, .of_bind fun _ ht => .of_same (popByte_ok_out ht)⟩
  | jmp r => exact ⟨_, _, rfl, jumpIf_appends true r s⟩
  | jeq r => exact ⟨_, _, rfl, jumpIf_appends s.flags.equal r s⟩
  | jne r => exact ⟨_, _, rfl, jumpIf_appends (!s.flags.equal) r s⟩
  | st rA rB =>
    exact ⟨_, _, rfl, .of_bind fun _ _ => .of_bind fun _ _ => .of_bind fun _ ht => .of_same (memWrite_ok_out ht)⟩

/-- The output after an instruction: as it was when a fault was taken, else followed by the instruction's events. -/
theorem exec_out_cases {i : Instr} {s t : State} (h : exec i s = .next t) :
    (∃ f, t = s.takeFault f) ∨ t.out = s.out ++ i.events s := by
  obtain ⟨n, r, hr, happ⟩ := exec_eq_complete_appends i s
  obtain ⟨f, -, rfl⟩ | ⟨u, o, ho, rfl⟩ := (complete_cases s t n r).1 (hr ▸ h)
  · exact .inl ⟨f, rfl⟩
  · exact .inr (happ u o ho)

/-! ### What a step can do, and a run -/

/-- Everything a step that answers a next state can be: a fetch fault taken, or the fetched instruction executed
(40_engine.md R81 to R92). -/
theorem step_next_cases {s t : State} (h : step s = .next t) :
    s.status = .running ∧
      ((∃ f, s.fetchInstr = .error f ∧ t = s.takeFault f) ∨ ∃ i, s.fetchInstr = .ok i ∧ exec i s = .next t) := by
  by_cases hrun : s.status = .running
  · refine ⟨hrun, ?_⟩
    rw [step, nextInstr_running hrun] at h
    cases hf : s.fetchInstr with
    | error f => rw [hf] at h; cases h; exact .inl ⟨f, rfl, rfl⟩
    | ok i => rw [hf] at h; exact .inr ⟨i, rfl, h⟩
  · rw [step, nextInstr_stopped hrun] at h; cases h

theorem step_out_prefix {s t : State} (h : step s = .next t) : s.out <+: t.out := by
  obtain ⟨-, ⟨f, -, rfl⟩ | ⟨i, -, hexec⟩⟩ := step_next_cases h
  · exact List.prefix_rfl
  · obtain ⟨f, rfl⟩ | hout := exec_out_cases hexec
    · exact List.prefix_rfl
    · exact hout ▸ List.prefix_append ..

/-- A run of `k + 1` steps that answers a state is a step and then a run of `k`. -/
theorem run_succ_next {M : Host.Core} {k : Nat} {s t : M.State} (h : M.run (k + 1) s = .next t) :
    ∃ u, M.step s = .next u ∧ M.run k u = .next t := by
  rw [Host.Core.run] at h
  cases hs : M.step s with
  | next u => rw [hs] at h; exact ⟨u, rfl, h⟩
  | fault r => rw [hs] at h; cases h
  | refused r => rw [hs] at h; cases h

theorem run_out_prefix {k : Nat} {s t : State} (h : Sys2Proof.core.run k s = .next t) : s.out <+: t.out := by
  induction k generalizing s with
  | zero => cases h; exact List.prefix_rfl
  | succ k ih =>
    obtain ⟨u, hstep, hrun⟩ := run_succ_next h
    exact (step_out_prefix hstep).trans (ih hrun)

/-- Settles O47: reset's output is empty, and a run, by induction on the number of its steps, keeps the output it began
with at the front of the output it ends with. -/
theorem eventsNeverWithdrawn : Obligations.EventsNeverWithdrawn := by
  refine ⟨rfl, fun k s t h => ?_⟩
  obtain ⟨later, hlater⟩ := run_out_prefix h
  exact ⟨later, hlater.symm⟩

end Sys2Proof.Machine

/-! ## Encoding: the register operand and the immediate (30_encoding.md R65, R66) -/

namespace Sys2Proof.Machine

/-! ### The register-index check (30_encoding.md R65) -/

/-- The check gives a register exactly when the byte, unmasked, is that register's number. -/
theorem regIdx_ok_iff (b : Byte) (i : Fin 8) : regIdx b = .ok i ↔ b.toNat = i := by
  constructor
  · intro h
    obtain ⟨j, rfl, hj⟩ | ⟨-, he⟩ := regIdx_cases b
    · obtain rfl : j = i := Except.ok.inj (hj.symm.trans h)
      exact regByte_toNat j
    · rw [he] at h; cases h
  · intro h
    obtain rfl : b = regByte i := BitVec.eq_of_toNat_eq (h.trans (regByte_toNat i).symm)
    exact regIdx_regByte i

/-- The AddressFault of a register byte holds the byte, extended to the record's 9 bits (60_exceptions.md R182). -/
theorem addressFault_byte (b : Byte) : Raised.addressFault b.toNat = ⟨.addressFault, b.setWidth 9⟩ := by
  rw [Raised.addressFault, BitVec.ofNat_toNat]

/-! ### Register operands before anything else (40_engine.md R86) -/

/-- The first of the bytes that names no register. -/
def firstBadReg (operands : List Byte) : Option Byte := operands.find? fun r => decide (8 ≤ r.toNat)

theorem firstBadReg_cons_of_lt {b : Byte} (h : b.toNat < 8) (operands : List Byte) :
    firstBadReg (b :: operands) = firstBadReg operands :=
  List.find?_cons_of_neg (by simpa using h)

theorem firstBadReg_cons_of_ge {b : Byte} (h : 8 ≤ b.toNat) (operands : List Byte) :
    firstBadReg (b :: operands) = some b :=
  List.find?_cons_of_pos (by simpa using h)

/-- A handler that raises the AddressFault of the first bad one of these register operands, whatever else it does. -/
def ChecksFirst (operands : List Byte) (r : Raises (State × HandlerOutcome)) : Prop :=
  ∀ b, firstBadReg operands = some b → r = .error (.addressFault b.toNat)

/-- With no operand left to check, a handler may do anything. -/
theorem ChecksFirst.nil {r : Raises (State × HandlerOutcome)} : ChecksFirst [] r := nofun

/-- A handler that begins with the check of its first operand, and goes on to check the others first. -/
theorem ChecksFirst.cons {a : Byte} {operands : List Byte} {f : Fin 8 → Raises (State × HandlerOutcome)}
    (h : ∀ i, ChecksFirst operands (f i)) : ChecksFirst (a :: operands) (regIdx a >>= f) := by
  intro b hb
  obtain ⟨i, rfl, hi⟩ | ⟨hbad, he⟩ := regIdx_cases a
  · rw [firstBadReg_cons_of_lt (by simp)] at hb
    rw [hi]
    exact h i b hb
  · rw [firstBadReg_cons_of_ge hbad] at hb
    obtain rfl : a = b := Option.some.inj hb
    rw [he]; rfl

theorem aluBinary_checksFirst (op : AluOp) (rA rB : Byte) (s : State) : ChecksFirst [rA, rB] (aluBinary op rA rB s) :=
  .cons fun _ => .cons fun _ => .nil

theorem aluUnary_checksFirst (op : AluOp) (r : Byte) (s : State) : ChecksFirst [r] (aluUnary op r s) :=
  .cons fun _ => .nil

theorem printReg_checksFirst (kind : OutKind) (r : Byte) (s : State) : ChecksFirst [r] (printReg kind r s) :=
  .cons fun _ => .nil

theorem jumpIf_checksFirst (taken : Bool) (r : Byte) (s : State) : ChecksFirst [r] (jumpIf taken r s) :=
  .cons fun _ => .nil

/-- Every instruction is a handler that checks the instruction's register operands first, completed by the engine. -/
theorem exec_eq_complete_checksFirst (i : Instr) (s : State) :
    ∃ n r, exec i s = s.complete n r ∧ ChecksFirst i.regOperands r := by
  cases i with
  | hlt => exact ⟨0, .ok (s.halt, .neutral), rfl, .nil⟩
  | ldi r imm => exact ⟨_, _, rfl, .cons fun _ => .nil⟩
  | prn r => exact ⟨_, _, rfl, printReg_checksFirst .dec r s⟩
  | pra r => exact ⟨_, _, rfl, printReg_checksFirst .char r s⟩
  | add rA rB => exact ⟨_, _, rfl, aluBinary_checksFirst .add rA rB s⟩
  | mul rA rB => exact ⟨_, _, rfl, aluBinary_checksFirst .mul rA rB s⟩
  | inc r => exact ⟨_, _, rfl, aluUnary_checksFirst .inc r s⟩
  | dec r => exact ⟨_, _, rfl, aluUnary_checksFirst .dec r s⟩
  | cmp rA rB => exact ⟨_, _, rfl, aluBinary_checksFirst .cmp rA rB s⟩
  | push r => exact ⟨_, _, rfl, .cons fun _ => .nil⟩
  | pop r => exact ⟨_, _, rfl, .cons fun _ => .nil⟩
  | call r => exact ⟨_, _, rfl, .cons fun _ => .nil⟩
  | ret => exact ⟨_, _, rfl, .nil⟩
  | jmp r => exact ⟨_, _, rfl, jumpIf_checksFirst true r s⟩
  | jeq r => exact ⟨_, _, rfl, jumpIf_checksFirst s.flags.equal r s⟩
  | jne r => exact ⟨_, _, rfl, jumpIf_checksFirst (!s.flags.equal) r s⟩
  | st rA rB => exact ⟨_, _, rfl, .cons fun _ => .cons fun _ => .nil⟩

/-- An instruction with a bad register operand takes the AddressFault of the first one. -/
theorem exec_of_firstBadReg {i : Instr} {b : Byte} (s : State) (h : firstBadReg i.regOperands = some b) :
    exec i s = .next (s.takeFault (.addressFault b.toNat)) := by
  obtain ⟨n, r, hexec, hfirst⟩ := exec_eq_complete_checksFirst i s
  rw [hexec, hfirst b h, complete_error]

/-- Settles O29: the check answers by the byte's value, and every handler begins with the checks of its operands, in
order. -/
theorem registerOperandsCheckedFirst : Obligations.RegisterOperandsCheckedFirst := by
  refine ⟨regIdx_ok_iff, fun b hb => ?_, fun i b s hbad => ?_⟩
  · rw [regIdx_of_ge hb, addressFault_byte]
  · rw [exec_of_firstBadReg s hbad, addressFault_byte]

/-! ### The immediate (30_encoding.md R66) -/

/-- LDI of a register, whose check passes: the engine completes the one register write. -/
theorem exec_ldi_regByte (i : Fin 8) (imm : Byte) (s : State) :
    exec (.ldi (regByte i) imm) s = s.complete 2 (.ok (s.setReg i imm, .neutral)) := by
  rw [exec, execLdi, regIdx_regByte]; rfl

/-- Settles O18: LDI completes after one register write, of the byte that its encoding holds at offset 2. -/
theorem ldiLoadsTheImmediate : Obligations.LdiLoadsTheImmediate := by
  refine ⟨fun i imm s => ?_, fun _ _ => rfl⟩
  rw [exec_ldi_regByte, complete_ok]
  rfl

end Sys2Proof.Machine

/-! ## The step engine: operand fetch (40_engine.md R84) -/

namespace Sys2Proof.Machine

/-! ### The step of a fetch -/

theorem step_of_fetch_ok {s : State} {i : Instr} (hrun : s.status = .running) (hf : s.fetchInstr = .ok i) :
    step s = exec i s := by
  rw [step, nextInstr_running hrun, hf]

theorem step_of_fetch_error {s : State} {f : Raised} (hrun : s.status = .running) (hf : s.fetchInstr = .error f) :
    step s = .next (s.takeFault f) := by
  rw [step, nextInstr_running hrun, hf]

/-! ### The fetch of an opcode's operands -/

/-- What the fetch can still do once the byte at pc is an opcode: some operand byte is the first one missing, or all of
them are in memory. -/
theorem fetchInstr_cases_of_opcode {s : State} {o : Opcode} (hpc : s.pc.toNat ≤ 255)
    (ho : decodeOpcode (s.mem.read s.pc.toNat) = some o) :
    (∃ k, 1 ≤ k ∧ k ≤ operandCount o.code ∧ s.pc.toNat + (k - 1) ≤ 255 ∧ 255 < s.pc.toNat + k ∧
        s.fetchInstr = .error (.addressFault (s.pc.toNat + k))) ∨
      (s.pc.toNat + operandCount o.code ≤ 255 ∧
        s.fetchInstr =
          .ok (o.assemble ((List.range (operandCount o.code)).map fun k => s.mem.read (s.pc.toNat + 1 + k)))) := by
  obtain ⟨hpast, -⟩ | ⟨-, hnone, -⟩ | ⟨o', -, ho', hcases⟩ := fetchInstr_cases s
  · exact absurd hpast (Nat.not_lt.2 hpc)
  · rw [ho] at hnone; cases hnone
  · obtain rfl : o = o' := Option.some.inj (ho.symm.trans ho')
    exact hcases

/-- Operand bytes that all lie in memory are the instruction's operands, in address order. -/
theorem fetchInstr_of_operands_fit {s : State} {o : Opcode} (hpc : s.pc.toNat ≤ 255)
    (ho : decodeOpcode (s.mem.read s.pc.toNat) = some o) (hfit : s.pc.toNat + operandCount o.code ≤ 255) :
    s.fetchInstr =
      .ok (o.assemble ((List.range (operandCount o.code)).map fun k => s.mem.read (s.pc.toNat + 1 + k))) := by
  obtain ⟨k, -, hk, -, hmissing, -⟩ | ⟨-, hok⟩ := fetchInstr_cases_of_opcode hpc ho
  · omega
  · exact hok

/-- The first operand byte above address 255 is the one whose address the fetch reports. -/
theorem fetchInstr_of_operand_missing {s : State} {o : Opcode} {k : Nat} (hpc : s.pc.toNat ≤ 255)
    (ho : decodeOpcode (s.mem.read s.pc.toNat) = some o) (hk1 : 1 ≤ k) (hk : k ≤ operandCount o.code)
    (hlast : s.pc.toNat + (k - 1) ≤ 255) (hmissing : 255 < s.pc.toNat + k) :
    s.fetchInstr = .error (.addressFault (s.pc.toNat + k)) := by
  obtain ⟨j, hj1, -, hjlast, hjmissing, he⟩ | ⟨hfit, -⟩ := fetchInstr_cases_of_opcode hpc ho
  · obtain rfl : j = k := by omega
    exact he
  · omega

/-- Settles O15: the step is the fetch's fault taken or its instruction executed, and the fetch reads the operands in
order up to the first one above address 255. -/
theorem operandFetchInOrder : Obligations.OperandFetchInOrder := by
  intro s o hrun hpc ho
  constructor
  · intro hfit
    exact step_of_fetch_ok hrun (fetchInstr_of_operands_fit hpc ho hfit)
  · intro k hk1 hk hlast hmissing
    exact step_of_fetch_error hrun (fetchInstr_of_operand_missing hpc ho hk1 hk hlast hmissing)

end Sys2Proof.Machine

/-! ## HLT: the one instruction that stops the core (41_hlt_ldi.md R101) -/

namespace Sys2Proof.Machine

/-! ### What the handlers leave of the status, the pc and the fault record -/

/-- `u` is `s` but for what an ordinary handler may write: registers, flags, memory and console output. -/
def OrdinaryWrite (s u : State) : Prop :=
  u = { s with x := u.x, flags := u.flags, mem := u.mem, out := u.out }

theorem aluWriteBack_ordinary (s : State) (dest : Fin 8) (o : AluOut) : OrdinaryWrite s (s.aluWriteBack dest o) := by
  obtain ⟨_ | v, _ | f⟩ := o <;> rfl

theorem memWrite_ok_ordinary {s t : State} {a : Nat} {v : Byte} (h : s.memWrite a v = .ok t) : OrdinaryWrite s t := by
  obtain ha | ha := Nat.lt_or_ge a 256
  · rw [memWrite_of_lt ha] at h; cases h; rfl
  · rw [memWrite_of_ge ha] at h; cases h

theorem pushByte_ok_ordinary {s t : State} {v : Byte} (h : s.pushByte v = .ok t) : OrdinaryWrite s t := by
  rw [pushByte_eq] at h
  split at h
  · cases h
  · cases h; rfl

theorem popByte_ok_ordinary {s t : State} {v : Byte} (h : s.popByte = .ok (v, t)) : OrdinaryWrite s t := by
  rw [popByte_eq] at h
  split at h
  · cases h
  · cases h; rfl

theorem OrdinaryWrite.setReg {s t : State} (h : OrdinaryWrite s t) (i : Fin 8) (v : Byte) :
    OrdinaryWrite s (t.setReg i v) := by
  rw [h]; rfl

/-- A handler that raises or, begun in `s`, makes ordinary writes only. -/
def WritesOrdinary (s : State) (r : Raises (State × HandlerOutcome)) : Prop :=
  ∀ u o, r = .ok (u, o) → OrdinaryWrite s u

theorem WritesOrdinary.of_ok {s u : State} {o : HandlerOutcome} (h : OrdinaryWrite s u) :
    WritesOrdinary s (.ok (u, o)) := by
  rintro _ _ ⟨⟩; exact h

/-- A check or an access that comes first can only raise, so the rest of the handler decides what it writes. -/
theorem WritesOrdinary.of_bind {α : Type} {s : State} {x : Raises α} {f : α → Raises (State × HandlerOutcome)}
    (h : ∀ a, x = .ok a → WritesOrdinary s (f a)) : WritesOrdinary s (x >>= f) := by
  cases x with
  | error _ => rintro _ _ ⟨⟩
  | ok a => exact h a rfl

theorem aluBinary_writesOrdinary (op : AluOp) (rA rB : Byte) (s : State) : WritesOrdinary s (aluBinary op rA rB s) :=
  .of_bind fun _ _ => .of_bind fun _ _ => .of_bind fun _ _ => .of_ok (aluWriteBack_ordinary ..)

theorem aluUnary_writesOrdinary (op : AluOp) (r : Byte) (s : State) : WritesOrdinary s (aluUnary op r s) :=
  .of_bind fun _ _ => .of_bind fun _ _ => .of_ok (aluWriteBack_ordinary ..)

theorem printReg_writesOrdinary (kind : OutKind) (r : Byte) (s : State) : WritesOrdinary s (printReg kind r s) :=
  .of_bind fun _ _ => .of_ok rfl

theorem jumpIf_writesOrdinary (taken : Bool) (r : Byte) (s : State) : WritesOrdinary s (jumpIf taken r s) :=
  .of_bind fun _ _ => .of_ok rfl

/-- Every instruction but HLT is a handler that makes ordinary writes only, completed by the engine. -/
theorem exec_eq_complete_writesOrdinary {i : Instr} (hi : i ≠ .hlt) (s : State) :
    ∃ n r, exec i s = s.complete n r ∧ WritesOrdinary s r := by
  cases i with
  | hlt => exact absurd rfl hi
  | ldi r imm => exact ⟨_, _, rfl, .of_bind fun _ _ => .of_ok rfl⟩
  | prn r => exact ⟨_, _, rfl, printReg_writesOrdinary .dec r s⟩
  | pra r => exact ⟨_, _, rfl, printReg_writesOrdinary .char r s⟩
  | add rA rB => exact ⟨_, _, rfl, aluBinary_writesOrdinary .add rA rB s⟩
  | mul rA rB => exact ⟨_, _, rfl, aluBinary_writesOrdinary .mul rA rB s⟩
  | inc r => exact ⟨_, _, rfl, aluUnary_writesOrdinary .inc r s⟩
  | dec r => exact ⟨_, _, rfl, aluUnary_writesOrdinary .dec r s⟩
  | cmp rA rB => exact ⟨_, _, rfl, aluBinary_writesOrdinary .cmp rA rB s⟩
  | push r => exact ⟨_, _, rfl, .of_bind fun _ _ => .of_bind fun _ ht => .of_ok (pushByte_ok_ordinary ht)⟩
  | pop r =>
    exact ⟨_, _, rfl, .of_bind fun i _ => .of_bind fun ⟨v, _⟩ ht => .of_ok ((popByte_ok_ordinary ht).setReg i v)⟩
  | call r =>
    exact ⟨_, _, rfl,
      .of_bind fun _ _ => .of_bind fun _ _ => .of_bind fun _ ht => .of_ok (pushByte_ok_ordinary ht)⟩
  | ret => exact ⟨_, _, rfl, .of_bind fun ⟨_, _⟩ ht => .of_ok (popByte_ok_ordinary ht)⟩
  | jmp r => exact ⟨_, _, rfl, jumpIf_writesOrdinary true r s⟩
  | jeq r => exact ⟨_, _, rfl, jumpIf_writesOrdinary s.flags.equal r s⟩
  | jne r => exact ⟨_, _, rfl, jumpIf_writesOrdinary (!s.flags.equal) r s⟩
  | st rA rB =>
    exact ⟨_, _, rfl, .of_bind fun _ _ => .of_bind fun _ _ => .of_bind fun _ ht => .of_ok (memWrite_ok_ordinary ht)⟩

/-! ### What leaves RUNNING -/

/-- After any instruction but HLT: a fault taken, or the status and the fault record as they were. -/
theorem exec_frame_cases {i : Instr} {s t : State} (hi : i ≠ .hlt) (h : exec i s = .next t) :
    (∃ f, t = s.takeFault f) ∨
      t = { s with x := t.x, flags := t.flags, pc := t.pc, mem := t.mem, out := t.out } := by
  obtain ⟨n, r, hr, hw⟩ := exec_eq_complete_writesOrdinary hi s
  obtain ⟨f, -, rfl⟩ | ⟨u, o, ho, rfl⟩ := (complete_cases s t n r).1 (hr ▸ h)
  · exact .inl ⟨f, rfl⟩
  · exact .inr (congrArg (fun v : State => { v with pc := s.nextPc n o }) (hw u o ho))

/-- HLT halts and moves the pc over its one byte. -/
theorem exec_hlt (s : State) : exec .hlt s = .next { s.halt with pc := s.pc + 1 } := rfl

/-- An instruction that changes the status is HLT, or takes a fault. -/
theorem exec_status_changed {i : Instr} {s t : State} (h : exec i s = .next t) (hne : t.status ≠ s.status) :
    (i = .hlt ∧ t.status = .halted) ∨ t.status = .faulted := by
  by_cases hi : i = .hlt
  · subst hi
    rw [exec_hlt] at h; cases h
    exact .inl ⟨rfl, rfl⟩
  · obtain ⟨f, rfl⟩ | hframe := exec_frame_cases hi h
    · exact .inr (takeFault_status s f)
    · exact absurd (congrArg State.status hframe) hne

/-- Settles O17: HLT's handler only sets the status, a step answers a state in RUNNING alone, and of the instructions
that take no fault HLT is the only one whose handler writes the status. -/
theorem hltHaltsForGood : Obligations.HltHaltsForGood := by
  refine ⟨exec_hlt, fun s t h => ?_, fun s t hhalted h => ?_, fun s t hrun h hleft => ?_⟩
  · rw [exec_hlt] at h; cases h; rfl
  · obtain ⟨hrun, -⟩ := step_next_cases h
    rw [hhalted] at hrun; cases hrun
  · obtain ⟨-, ⟨f, -, rfl⟩ | ⟨i, hfetch, hexec⟩⟩ := step_next_cases h
    · exact .inr (takeFault_status s f)
    · obtain ⟨rfl, hhalted⟩ | hfault := exec_status_changed hexec (hrun ▸ hleft)
      · exact .inl ⟨hhalted, (fetchInstr_ok_iff s .hlt).1 hfetch⟩
      · exact .inr hfault

end Sys2Proof.Machine

/-! ## The ALU family: the flags and the results (43_alu.md R121, R129) -/

namespace Sys2Proof.Machine

/-! ### What the shared operations leave of the flags -/

/-- No alu operation but the comparison has a flag output (43_alu.md R130). -/
theorem alu_ok_flags {op : AluOp} (hop : op ≠ .cmp) {a b : Byte} {o : AluOut} (h : alu op a b = .ok o) :
    o.flags = none := by
  cases op with
  | cmp => exact absurd rfl hop
  | other raw => cases h
  | add | mul | inc | dec => cases h; rfl

theorem aluWriteBack_flags_of_none (s : State) (dest : Fin 8) {o : AluOut} (h : o.flags = none) :
    (s.aluWriteBack dest o).flags = s.flags := by
  obtain ⟨_ | v, f⟩ := o
  all_goals obtain rfl : f = none := h; rfl

theorem memWrite_ok_flags {s t : State} {a : Nat} {v : Byte} (h : s.memWrite a v = .ok t) : t.flags = s.flags := by
  obtain ha | ha := Nat.lt_or_ge a 256
  · rw [memWrite_of_lt ha] at h; cases h; rfl
  · rw [memWrite_of_ge ha] at h; cases h

theorem pushByte_ok_flags {s t : State} {v : Byte} (h : s.pushByte v = .ok t) : t.flags = s.flags := by
  rw [pushByte_eq] at h
  split at h
  · cases h
  · cases h; rfl

theorem popByte_ok_flags {s : State} {p : Byte × State} (h : s.popByte = .ok p) : p.2.flags = s.flags := by
  rw [popByte_eq] at h
  split at h
  · cases h
  · cases h; rfl

/-! ### Every handler but CMP's keeps the flags -/

/-- A handler that raises or, begun in `s`, leaves the flags as they were. -/
def KeepsFlags (s : State) (r : Raises (State × HandlerOutcome)) : Prop :=
  ∀ u o, r = .ok (u, o) → u.flags = s.flags

theorem KeepsFlags.of_ok {s u : State} {o : HandlerOutcome} (h : u.flags = s.flags) : KeepsFlags s (.ok (u, o)) := by
  rintro _ _ ⟨⟩; exact h

/-- A check or an access that comes first can only raise, so the rest of the handler decides what the flags become. -/
theorem KeepsFlags.of_bind {α : Type} {s : State} {x : Raises α} {f : α → Raises (State × HandlerOutcome)}
    (h : ∀ a, x = .ok a → KeepsFlags s (f a)) : KeepsFlags s (x >>= f) := by
  cases x with
  | error _ => rintro _ _ ⟨⟩
  | ok a => exact h a rfl

theorem aluBinary_keepsFlags {op : AluOp} (hop : op ≠ .cmp) (rA rB : Byte) (s : State) :
    KeepsFlags s (aluBinary op rA rB s) :=
  .of_bind fun a _ => .of_bind fun _ _ => .of_bind fun _ ho =>
    .of_ok (aluWriteBack_flags_of_none s a (alu_ok_flags hop ho))

theorem aluUnary_keepsFlags {op : AluOp} (hop : op ≠ .cmp) (r : Byte) (s : State) : KeepsFlags s (aluUnary op r s) :=
  .of_bind fun i _ => .of_bind fun _ ho => .of_ok (aluWriteBack_flags_of_none s i (alu_ok_flags hop ho))

theorem printReg_keepsFlags (kind : OutKind) (r : Byte) (s : State) : KeepsFlags s (printReg kind r s) :=
  .of_bind fun i _ => .of_ok (emit_flags s (s.reg i) kind)

theorem jumpIf_keepsFlags (taken : Bool) (r : Byte) (s : State) : KeepsFlags s (jumpIf taken r s) :=
  .of_bind fun _ _ => .of_ok rfl

/-- Every instruction but CMP is a handler that keeps the flags, completed by the engine. -/
theorem exec_eq_complete_keepsFlags {i : Instr} (hi : ∀ rA rB, i ≠ .cmp rA rB) (s : State) :
    ∃ n r, exec i s = s.complete n r ∧ KeepsFlags s r := by
  cases i with
  | cmp rA rB => exact absurd rfl (hi rA rB)
  | hlt => exact ⟨_, _, rfl, .of_ok (halt_flags s)⟩
  | ldi r imm => exact ⟨_, _, rfl, .of_bind fun i _ => .of_ok (setReg_flags s i imm)⟩
  | prn r => exact ⟨_, _, rfl, printReg_keepsFlags .dec r s⟩
  | pra r => exact ⟨_, _, rfl, printReg_keepsFlags .char r s⟩
  | add rA rB => exact ⟨_, _, rfl, aluBinary_keepsFlags (op := .add) nofun rA rB s⟩
  | mul rA rB => exact ⟨_, _, rfl, aluBinary_keepsFlags (op := .mul) nofun rA rB s⟩
  | inc r => exact ⟨_, _, rfl, aluUnary_keepsFlags (op := .inc) nofun r s⟩
  | dec r => exact ⟨_, _, rfl, aluUnary_keepsFlags (op := .dec) nofun r s⟩
  | push r => exact ⟨_, _, rfl, .of_bind fun _ _ => .of_bind fun _ ht => .of_ok (pushByte_ok_flags ht)⟩
  | pop r => exact ⟨_, _, rfl, .of_bind fun _ _ => .of_bind fun _ ht => .of_ok (popByte_ok_flags ht)⟩
  | call r =>
    exact ⟨_, _, rfl, .of_bind fun _ _ => .of_bind fun _ _ => .of_bind fun _ ht => .of_ok (pushByte_ok_flags ht)⟩
  | ret => exact ⟨_, _, rfl, .of_bind fun _ ht => .of_ok (popByte_ok_flags ht)⟩
  | jmp r => exact ⟨_, _, rfl, jumpIf_keepsFlags true r s⟩
  | jeq r => exact ⟨_, _, rfl, jumpIf_keepsFlags s.flags.equal r s⟩
  | jne r => exact ⟨_, _, rfl, jumpIf_keepsFlags (!s.flags.equal) r s⟩
  | st rA rB =>
    exact ⟨_, _, rfl, .of_bind fun _ _ => .of_bind fun _ _ => .of_bind fun _ ht => .of_ok (memWrite_ok_flags ht)⟩

/-- An instruction that is no CMP keeps the flags, whether it completes or takes a fault. -/
theorem exec_flags_of_ne_cmp {i : Instr} {s t : State} (hi : ∀ rA rB, i ≠ .cmp rA rB) (h : exec i s = .next t) :
    t.flags = s.flags := by
  obtain ⟨n, r, hr, hkeeps⟩ := exec_eq_complete_keepsFlags hi s
  obtain ⟨f, -, rfl⟩ | ⟨u, o, ho, rfl⟩ := (complete_cases s t n r).1 (hr ▸ h)
  · exact takeFault_flags s f
  · exact hkeeps u o ho

/-! ### CMP -/

/-- CMP of two registers, whose checks pass: the engine completes the one write of the flags. -/
theorem exec_cmp_regByte (a c : Fin 8) (s : State) :
    exec (.cmp (regByte a) (regByte c)) s =
      s.complete 2 (.ok (s.setFlags (compareFlags (s.reg a) (s.reg c)), .neutral)) := by
  rw [exec, execCmp, aluBinary, regIdx_regByte, regIdx_regByte]; rfl

/-- A comparison sets exactly one flag, the one of the case of trichotomy that holds. -/
theorem compareFlags_count_true (u v : Byte) :
    [(compareFlags u v).equal, (compareFlags u v).lessThan, (compareFlags u v).greaterThan].count true = 1 := by
  obtain h | h | h := Nat.lt_trichotomy u.toNat v.toNat
  · simp [compareFlags, h, h.ne, h.not_gt]
  · simp [compareFlags, h]
  · simp [compareFlags, h, h.ne', h.not_gt]

/-- Settles O31: CMP's is the only handler with a flag write, and it writes the flags of one comparison. -/
theorem onlyCmpWritesFlags : Obligations.OnlyCmpWritesFlags := by
  refine ⟨fun i s t hi h => exec_flags_of_ne_cmp hi h, fun a c s => ?_⟩
  rw [exec_cmp_regByte, complete_ok]
  exact ⟨_, rfl, compareFlags_count_true (s.reg a) (s.reg c)⟩

/-! ### Results modulo 256 -/

/-- The alu's decrement, which adds 255, is the exact subtraction of 1 modulo 256. -/
theorem toNat_ofNat_add_255 (n : Nat) : ((BitVec.ofNat 8 (n + 255)).toNat : Int) = ((n : Int) - 1) % 256 := by
  rw [BitVec.toNat_ofNat]; omega

/-- Settles O30: each of the five kinds answers, and a result is the byte of an exact sum or product. -/
theorem aluResultsModulo256 : Obligations.AluResultsModulo256 := by
  intro a b
  refine ⟨?add, ?mul, ?inc, ?dec, ?cmp⟩
  case add => exact ⟨_, rfl, BitVec.toNat_ofNat (a.toNat + b.toNat) 8⟩
  case mul => exact ⟨_, rfl, BitVec.toNat_ofNat (a.toNat * b.toNat) 8⟩
  case inc => exact ⟨_, rfl, BitVec.toNat_ofNat (a.toNat + 1) 8⟩
  case dec => exact ⟨_, rfl, toNat_ofNat_add_255 a.toNat⟩
  case cmp => exact ⟨compareFlags a b, rfl⟩

end Sys2Proof.Machine

/-! ## The exceptions: IllegalInstruction (60_exceptions.md R181) -/

namespace Sys2Proof.Machine

/-- A byte outside the opcode table is reported itself, and no operand address is. -/
theorem fetchInstr_of_illegal_opcode {s : State} (hpc : s.pc.toNat ≤ 255)
    (hnone : decodeOpcode (s.mem.read s.pc.toNat) = none) :
    s.fetchInstr = .error (.illegalInstruction (s.mem.read s.pc.toNat)) := by
  obtain ⟨hpast, -⟩ | ⟨-, -, he⟩ | ⟨o, -, ho, -⟩ := fetchInstr_cases s
  · exact absurd hpast (Nat.not_lt.2 hpc)
  · exact he
  · rw [hnone] at ho; cases ho

/-- Once a fault is taken the core is FAULTED, and there no step answers a next state (40_engine.md R81, R91). -/
theorem step_takeFault_ne_next (s : State) (f : Raised) (u : State) : step (s.takeFault f) ≠ .next u := by
  intro h
  obtain ⟨hrun, -⟩ := step_next_cases h
  rw [takeFault_status] at hrun; cases hrun

/-- Settles O14: the fetch's fault is the illegal byte's, and taking it leaves the output alone and ends the run. -/
theorem illegalOpcodeStops : Obligations.IllegalOpcodeStops := by
  refine ⟨fun s hrun hpc hnone => ?_, by decide⟩
  have hfetch := fetchInstr_of_illegal_opcode hpc hnone
  exact ⟨_, step_of_fetch_error hrun hfetch, takeFault_status .., takeFault_faultCode .., takeFault_out ..,
    step_takeFault_ne_next s _⟩

end Sys2Proof.Machine

/-! ## Encoding: the decoder and the encoder are inverse (30_encoding.md sections 1 to 3) -/

namespace Sys2Proof

/-! ### The operand bytes of a list of bytes -/

theorem byteAt_ok_iff {bytes : List Byte} {offset : Nat} {b : Byte} :
    byteAt bytes offset = .ok b ↔ bytes[offset]? = some b := by
  unfold byteAt
  cases bytes[offset]? with
  | none => simp
  | some c => simp

/-- Operands that were read are the bytes from the first offset on. -/
theorem readOperands_byteAt_ok {bytes : List Byte} {first n : Nat} {bs : List Byte}
    (h : readOperands (byteAt bytes) first n = .ok bs) : bs.length = n ∧ ∃ rest, bytes.drop first = bs ++ rest := by
  induction n generalizing first bs with
  | zero => cases h; exact ⟨rfl, bytes.drop first, rfl⟩
  | succ n ih =>
    rw [readOperands] at h
    cases hb : byteAt bytes first with
    | error e => rw [hb] at h; cases h
    | ok b =>
      cases hr : readOperands (byteAt bytes) (first + 1) n with
      | error e => rw [hb, hr] at h; cases h
      | ok tail =>
        rw [hb, hr] at h; cases h
        obtain ⟨hlen, rest, hrest⟩ := ih hr
        obtain ⟨hlt, hget⟩ := List.getElem?_eq_some_iff.1 (byteAt_ok_iff.1 hb)
        refine ⟨congrArg (· + 1) hlen, rest, ?_⟩
        rw [List.drop_eq_getElem_cons hlt, hget, hrest, List.cons_append]

/-- An opcode put together with as many bytes as it has operands has just these operands. -/
theorem operands_assemble {o : Opcode} {bs : List Byte} (h : bs.length = operandCount o.code) :
    (o.assemble bs).operands = bs := by
  rw [operandCount_code] at h
  cases o with
  | hlt | ret => exact (List.length_eq_zero_iff.1 h).symm
  | prn | pra | inc | dec | push | pop | call | jmp | jeq | jne => obtain ⟨b, rfl⟩ := List.length_eq_one_iff.1 h; rfl
  | ldi | add | mul | cmp | st => obtain ⟨b, c, rfl⟩ := List.length_eq_two.1 h; rfl

/-! ### The two directions -/

/-- Settles O1: the opcode byte is found by its value, the operand bytes after it are all there, and an instruction is its
opcode put together with its operands. -/
theorem decodeEncodeRoundTrip : Obligations.DecodeEncodeRoundTrip := by
  intro i rest
  have hop : byteAt (encode i ++ rest) 0 = .ok i.opcode.code := rfl
  have hread : readOperands (byteAt (encode i ++ rest)) 1 (operandCount i.opcode.code) = .ok i.operands := by
    rw [← operands_length]
    refine readOperands_ok fun k hk => byteAt_ok_iff.2 ?_
    rw [encode, List.cons_append, Nat.add_comm, List.getElem?_cons_succ, List.getElem?_append_left hk,
      List.getElem?_eq_getElem hk]
  rw [decode, decodeFrom_of_opcode hop, decodeOpcode_code, hread]
  exact congrArg Except.ok (assemble_operands i)

/-- What was decoded from a list is the opcode of the first byte with its operands, which follow that byte. -/
theorem decode_cons_ok {op : Byte} {tail : List Byte} {i : Instr} (h : decode (op :: tail) = .ok i) :
    ∃ (o : Opcode) (operands rest : List Byte), o.code = op ∧ operands.length = operandCount o.code ∧ tail = operands ++ rest ∧
      i = o.assemble operands := by
  have hop : byteAt (op :: tail) 0 = .ok op := rfl
  rw [decode, decodeFrom_of_opcode hop] at h
  cases ho : decodeOpcode op with
  | none => rw [ho] at h; cases h
  | some o =>
    rw [ho] at h
    cases hr : readOperands (byteAt (op :: tail)) 1 (operandCount op) with
    | error e => rw [hr] at h; cases h
    | ok operands =>
      rw [hr] at h; cases h
      obtain ⟨hlen, rest, hrest⟩ := readOperands_byteAt_ok hr
      have hcode := code_of_decodeOpcode ho
      exact ⟨o, operands, rest, hcode, hcode ▸ hlen, hrest, rfl⟩

/-- Settles O2: the decoder took its opcode from the first byte and its operands from the next ones. -/
theorem decodedBytesAreTheEncoding : Obligations.DecodedBytesAreTheEncoding := by
  intro bytes i h
  cases bytes with
  | nil => cases h
  | cons op tail =>
    obtain ⟨o, operands, rest, rfl, hlen, rfl, rfl⟩ := decode_cons_ok h
    exact ⟨rest, by rw [encode, assemble_opcode, operands_assemble hlen, List.cons_append]⟩

/-- Settles O3: each sequence is the encoding of the instruction beside it; the last two are no instruction's. -/
theorem specWordsDecode : Obligations.SpecWordsDecode :=
  ⟨decodeEncodeRoundTrip .hlt [], decodeEncodeRoundTrip (.ldi 0 5) [], decodeEncodeRoundTrip (.pra 2) [],
    decodeEncodeRoundTrip (.add 0 1) [], decodeEncodeRoundTrip (.cmp 1 2) [], decodeEncodeRoundTrip (.dec 8) [],
    decodeEncodeRoundTrip (.push 7) [], decodeEncodeRoundTrip .ret [], decodeEncodeRoundTrip (.jeq 1) [],
    decodeEncodeRoundTrip (.st 0 1) [], by decide, by decide⟩

/-! ### The opcode byte -/

/-- The top two bits of a byte are its quotient by 64. -/
theorem operandCount_eq_div (op : Byte) : operandCount op = op.toNat / 64 := by
  have hlt := op.isLt
  rw [operandCount, BitVec.extractLsb'_toNat, Nat.shiftRight_eq_div_pow, Nat.mod_eq_of_lt (by omega)]

/-- Settles O4: the decoder finds an opcode by its whole byte, and the top two bits of an opcode are not both set. -/
theorem opcodeByteMatchedWhole : Obligations.OpcodeByteMatchedWhole := by
  refine ⟨fun op o => ⟨code_of_decodeOpcode, fun h => h ▸ decodeOpcode_code o⟩, fun o o' h => ?_, fun op hop => ?_⟩
  · have hsome : some o = some o' := by rw [← decodeOpcode_code o, h, decodeOpcode_code]
    exact Option.some.inj hsome
  · cases ho : decodeOpcode op with
    | none => rfl
    | some o =>
      have hle := operandCount_le o
      rw [code_of_decodeOpcode ho, operandCount_eq_div] at hle
      omega

/-- Settles O5: an instruction has as many operand bytes as its opcode's top two bits say. -/
theorem operandCountFromTopTwoBits : Obligations.OperandCountFromTopTwoBits := by
  intro i
  have hlen : i.operands.length = i.opcode.code.toNat / 64 := by rw [operands_length, operandCount_eq_div]
  exact ⟨hlen, by rw [encode, List.length_cons, hlen, Nat.add_comm]⟩

end Sys2Proof

/-! ## Reset, load and start (70_reset_and_hazards.md sections 1 and 2) -/

namespace Sys2Proof.Machine

/-! ### The bytes of a written image -/

/-- Writing bytes leaves every address before the first and after the last alone. -/
theorem Memory.read_writeBytes_outside {m : Memory} {a x : Nat} {bytes : List Byte}
    (h : x < a ∨ a + bytes.length ≤ x) : Memory.read (Memory.writeBytes m a bytes) x = Memory.read m x := by
  induction bytes generalizing m a with
  | nil => rfl
  | cons b rest ih =>
    simp only [List.length_cons] at h
    rw [Memory.writeBytes, ih (by omega)]
    split
    · exact Memory.read_write_ne b (by omega)
    · rfl

/-- A byte written to an address in memory is read back there. -/
theorem Memory.read_writeBytes_inside {m : Memory} (hwf : m.wf) {a k : Nat} {bytes : List Byte} (hk : k < bytes.length)
    (ha : a + k < 256) : Memory.read (Memory.writeBytes m a bytes) (a + k) = bytes[k] := by
  induction bytes generalizing m a k with
  | nil => cases hk
  | cons b rest ih =>
    have hcell : a < 256 := by omega
    rw [Memory.writeBytes, if_pos hcell]
    cases k with
    | zero => rw [Memory.read_writeBytes_outside (by omega), Nat.add_zero, Memory.read_write_same hwf.1]; rfl
    | succ k =>
      rw [show a + (k + 1) = a + 1 + k by omega, ih (Memory.wf_write hwf hcell b) (by simpa using hk) (by omega)]
      rfl

/-! ### The load port (70_reset_and_hazards.md R212) -/

theorem hostLoad_of_idle {s : State} {image : List Byte} (hidle : s.status = .idle) (hlen : image.length ≤ 256) :
    s.hostLoad image = some { s with mem := s.mem.writeBytes 0 image } :=
  if_pos ⟨hidle, hlen⟩

theorem hostLoad_eq_some {s t : State} {image : List Byte} (h : s.hostLoad image = some t) :
    s.status = .idle ∧ image.length ≤ 256 ∧ t = { s with mem := s.mem.writeBytes 0 image } := by
  unfold State.hostLoad at h
  split at h
  · next hcond => exact ⟨hcond.1, hcond.2, (Option.some.inj h).symm⟩
  · cases h

/-- Every cell of reset memory reads 0. -/
theorem reset_mem_read (a : Nat) : State.reset.mem.read a = 0 := rfl

/-- Settles O6: each value as reset sets it. -/
theorem resetValues : Obligations.ResetValues :=
  ⟨by decide, rfl, rfl, rfl, rfl, rfl, rfl, reset_mem_read, rfl⟩

/-- Settles O7: the load is a write of the image's bytes from address 0, and the bytes are read back as written. -/
theorem loadWritesImageFromZero : Obligations.LoadWritesImageFromZero := by
  constructor
  · intro s image hwf hidle hlen
    refine ⟨_, hostLoad_of_idle hidle hlen, rfl, Memory.wf_writeBytes hwf 0 image, fun a ha => ?_, fun a ha => ?_⟩
    · simpa using Memory.read_writeBytes_inside hwf (a := 0) ha (by omega)
    · exact Memory.read_writeBytes_outside (.inr (by omega))
  · intro image t h a ha
    obtain ⟨-, -, rfl⟩ := hostLoad_eq_some h
    exact (Memory.read_writeBytes_outside (.inr (by omega))).trans (reset_mem_read a)

theorem hostStart_of_idle {s : State} (h : s.status = .idle) : s.hostStart = { s with status := .running } := by
  rw [State.hostStart, h]

/-- Settles O8: start asks for IDLE, and a load for IDLE and an image that fits. -/
theorem startAndLoadOnlyFromIdle : Obligations.StartAndLoadOnlyFromIdle := by
  refine ⟨fun s => ⟨hostStart_of_idle, fun h => ?_⟩, fun s image h => if_neg fun hcond => ?_⟩
  · unfold State.hostStart
    cases hs : s.status with
    | idle => exact absurd hs h
    | running | halted | faulted => rfl
  · obtain ⟨hidle, hlen⟩ := hcond
    rcases h with hstopped | hlong
    · exact hstopped hidle
    · exact absurd hlen (Nat.not_le.2 hlong)

/-! ### The boot order (70_reset_and_hazards.md R215) -/

/-- An image the Loader answers fits in memory (30_encoding.md R75, decision D25). -/
theorem loaderImage_length_le {source : Option (List Char)} {image : List Byte} (h : loaderImage source = .ok image) :
    image.length ≤ 256 := by
  unfold loaderImage at h
  split at h
  · cases h
  · dsimp only at h
    split at h
    · cases h
    · split at h
      · cases h
      · next hfits =>
        cases h
        rw [List.length_map]
        exact Nat.not_lt.1 hfits

theorem hostBoot_of_error {source : Option (List Char)} {e : LoadFailure} (s : State)
    (h : loaderImage source = .error e) : s.hostBoot source = (State.reset, some e) := by
  rw [State.hostBoot, h]; rfl

/-- An image that loads is run from reset, RUNNING, written from address 0. -/
theorem hostBoot_of_ok {source : Option (List Char)} {image : List Byte} (s : State) (h : loaderImage source = .ok image) :
    s.hostBoot source = ({ State.reset with mem := Memory.writeBytes [] 0 image, status := .running }, none) := by
  have hload := hostLoad_of_idle (s := State.reset) rfl (loaderImage_length_le h)
  rw [State.hostBoot, h]
  simp only [State.hostReset, hload]
  rfl

/-- A loaded image reads back over memory that is 0 past it. -/
theorem read_writeBytes_nil {image : List Byte} (hlen : image.length ≤ 256) (a : Nat) :
    Memory.read (Memory.writeBytes [] 0 image) a = image.getD a 0 := by
  obtain ha | ha := Nat.lt_or_ge a image.length
  · rw [List.getD_eq_getElem _ _ ha]
    simpa using Memory.read_writeBytes_inside Memory.wf_nil (a := 0) ha (by omega)
  · rw [List.getD_eq_default _ _ ha, Memory.read_writeBytes_outside (.inr (by omega))]
    rfl

/-- Settles O9: the Loader's image always fits, so that the load and the start follow; without an image reset is all. -/
theorem bootOrderRunsTheImage : Obligations.BootOrderRunsTheImage := by
  refine fun s source => ⟨fun image h => ?_, fun e h => hostBoot_of_error s h⟩
  exact ⟨_, hostBoot_of_ok s h, rfl, read_writeBytes_nil (loaderImage_length_le h)⟩

/-- Settles O10: the Loader evaluated on the four sources. -/
theorem loaderReadsBaseTwoTokens : Obligations.LoaderReadsBaseTwoTokens :=
  ⟨by decide, by decide, by decide, rfl⟩

end Sys2Proof.Machine

/-! ## What an instruction does: the fault of its own checks, or its writes (40_engine.md R85 to R90) -/

namespace Sys2Proof.Machine

/-! ### Register operands that pass their check -/

/-- The register an operand byte below 8 names. -/
def regOf (b : Byte) : Fin 8 := Fin.ofNat 8 b.toNat

@[simp] theorem regOf_regByte (k : Fin 8) : regOf (regByte k) = k := by simp [regOf]

theorem regIdx_of_lt {b : Byte} (h : b.toNat < 8) : regIdx b = .ok (regOf b) := by
  rw [eq_regByte h, regIdx_regByte, regOf_regByte]

theorem wellFormed_iff {i : Instr} : i.wellFormed = true ↔ ∀ r ∈ i.regOperands, r.toNat < 8 := by
  simp [Instr.wellFormed, namesRegister]

theorem wellFormed_iff_firstBadReg {i : Instr} : i.wellFormed = true ↔ firstBadReg i.regOperands = none := by
  simp [wellFormed_iff, firstBadReg]

/-! ### The fault of an instruction's own checks (60_exceptions.md R187, items 4 to 6) -/

theorem instrFault_of_firstBadReg {i : Instr} {b : Byte} (s : State) (h : firstBadReg i.regOperands = some b) :
    s.instrFault i = some (.addressFault b.toNat) := by
  have hfind : i.regOperands.find? (fun r => decide (7 < r.toNat)) = some b := h
  rw [State.instrFault, hfind]

theorem find_badReg_of_wellFormed {i : Instr} (h : i.wellFormed = true) :
    i.regOperands.find? (fun r => decide (7 < r.toNat)) = none :=
  wellFormed_iff_firstBadReg.1 h

/-- With good register operands only the stack instructions have a check left. -/
theorem instrFault_of_stackless {i : Instr} (s : State) (h : i.wellFormed = true)
    (hop : i.opcode ∉ [Opcode.push, .pop, .call, .ret]) : s.instrFault i = none := by
  simp only [List.mem_cons, List.not_mem_nil, or_false, not_or] at hop
  simp [State.instrFault, find_badReg_of_wellFormed h, hop]

theorem sp_toNat_eq_zero {sp : Byte} : sp.toNat = 0 ↔ sp = 0 := BitVec.toNat_inj (y := 0)

theorem instrFault_push {r : Byte} (s : State) (h : (Instr.push r).wellFormed = true) :
    s.instrFault (.push r) = if s.sp = 0 then some (.stackFault s.sp) else none := by
  simp [State.instrFault, find_badReg_of_wellFormed h, Instr.opcode, sp_toNat_eq_zero]

theorem instrFault_pop {r : Byte} (s : State) (h : (Instr.pop r).wellFormed = true) :
    s.instrFault (.pop r) = if Config.stackEmpty ≤ s.sp then some (.stackFault s.sp) else none := by
  simp [State.instrFault, find_badReg_of_wellFormed h, Instr.opcode, BitVec.le_def]

theorem instrFault_call {r : Byte} (s : State) (h : (Instr.call r).wellFormed = true) :
    s.instrFault (.call r) =
      if 255 < s.pc.toNat + 2 then some (.addressFault (s.pc.toNat + 2))
      else if s.sp = 0 then some (.stackFault s.sp) else none := by
  simp [State.instrFault, find_badReg_of_wellFormed h, Instr.opcode, sp_toNat_eq_zero]

theorem instrFault_ret (s : State) :
    s.instrFault .ret = if Config.stackEmpty ≤ s.sp then some (.stackFault s.sp) else none := by
  simp [State.instrFault, find_badReg_of_wellFormed (i := .ret) rfl, Instr.opcode, BitVec.le_def]

/-! ### The writes of an instruction whose checks pass -/

/-- The state after a push of `v` with room for it. -/
def State.pushed (s : State) (v : Byte) : State :=
  State.setReg { s with mem := s.mem.write (s.sp - 1).toNat v } 7 (s.sp - 1)

/-- What an instruction writes besides the pc, when none of its checks fails. -/
def instrWrites (i : Instr) (s : State) : State :=
  match i with
  | .hlt => s.halt
  | .ldi r imm => s.setReg (regOf r) imm
  | .prn r => s.emit .dec (s.reg (regOf r))
  | .pra r => s.emit .char (s.reg (regOf r))
  | .add rA rB => s.setReg (regOf rA) (s.reg (regOf rA) + s.reg (regOf rB))
  | .mul rA rB => s.setReg (regOf rA) (s.reg (regOf rA) * s.reg (regOf rB))
  | .inc r => s.setReg (regOf r) (s.reg (regOf r) + 1)
  | .dec r => s.setReg (regOf r) (s.reg (regOf r) - 1)
  | .cmp rA rB => s.setFlags (compareFlags (s.reg (regOf rA)) (s.reg (regOf rB)))
  | .push r => s.pushed (s.reg (regOf r))
  | .pop r => (s.setReg 7 (s.sp + 1)).setReg (regOf r) (s.mem.read s.sp.toNat)
  | .call _ => s.pushed (BitVec.ofNat 8 (s.pc.toNat + 2))
  | .ret => s.setReg 7 (s.sp + 1)
  | .jmp _ | .jeq _ | .jne _ => s
  | .st rA rB => { s with mem := s.mem.write (s.reg (regOf rA)).toNat (s.reg (regOf rB)) }

/-- How an instruction's handler ends: the fault of the first failing check, or the writes and the ending. -/
def instrHandled (i : Instr) (s : State) : Raises (State × HandlerOutcome) :=
  match s.instrFault i with
  | some f => .error f
  | none => .ok (instrWrites i s, instrEnding i s)

theorem instrHandled_of_some {i : Instr} {s : State} {f : Raised} (h : s.instrFault i = some f) :
    instrHandled i s = .error f := by
  rw [instrHandled, h]

theorem instrHandled_of_none {i : Instr} {s : State} (h : s.instrFault i = none) :
    instrHandled i s = .ok (instrWrites i s, instrEnding i s) := by
  rw [instrHandled, h]

/-- The alu's decrement, which adds 255, is the subtraction of 1. -/
theorem ofNat_toNat_add_255 (a : Byte) : BitVec.ofNat 8 (a.toNat + 255) = a - 1 := by
  apply BitVec.eq_of_toNat_eq
  rw [BitVec.toNat_ofNat, BitVec.toNat_sub, Nat.add_comm]
  rfl

/-- A one-operand handler whose register check passes. -/
theorem regIdx_bind {α : Type} {r : Byte} (h : r.toNat < 8) (f : Fin 8 → Raises α) : (regIdx r >>= f) = f (regOf r) := by
  rw [regIdx_of_lt h]; rfl

theorem aluBinary_of_lt {op : AluOp} {rA rB : Byte} (s : State) (hA : rA.toNat < 8) (hB : rB.toNat < 8) :
    aluBinary op rA rB s =
      alu op (s.reg (regOf rA)) (s.reg (regOf rB)) >>= fun o => .ok (s.aluWriteBack (regOf rA) o, .neutral) := by
  rw [aluBinary, regIdx_bind hA, regIdx_bind hB]; rfl

theorem aluUnary_of_lt {op : AluOp} {r : Byte} (s : State) (h : r.toNat < 8) :
    aluUnary op r s = alu op (s.reg (regOf r)) 0 >>= fun o => .ok (s.aluWriteBack (regOf r) o, .neutral) := by
  rw [aluUnary, regIdx_bind h]; rfl

theorem printReg_of_lt {kind : OutKind} {r : Byte} (s : State) (h : r.toNat < 8) :
    printReg kind r s = .ok (s.emit kind (s.reg (regOf r)), .neutral) := by
  rw [printReg, regIdx_bind h]; rfl

theorem jumpIf_of_lt {taken : Bool} {r : Byte} (s : State) (h : r.toNat < 8) :
    jumpIf taken r s = .ok (s, .transfer (if taken then byteToPc (s.reg (regOf r)) else s.pcPlus 2)) := by
  rw [jumpIf, regIdx_bind h]; rfl

/-- An instruction with good register operands and no use of the stack completes with its writes. -/
theorem exec_of_stackless {i : Instr} (s : State) (hwf : i.wellFormed = true)
    (hop : i.opcode ∉ [Opcode.push, .pop, .call, .ret]) :
    exec i s = s.complete i.operands.length (.ok (instrWrites i s, instrEnding i s)) := by
  have hgood := wellFormed_iff.1 hwf
  cases i with
  | push | pop | call | ret => simp [Instr.opcode] at hop
  | hlt => rfl
  | ldi r imm => rw [exec, execLdi, regIdx_bind (hgood r (.head _))]; rfl
  | prn r => rw [exec, execPrn, printReg_of_lt s (hgood r (.head _))]; rfl
  | pra r => rw [exec, execPra, printReg_of_lt s (hgood r (.head _))]; rfl
  | add rA rB => rw [exec, execAdd, aluBinary_of_lt s (hgood rA (.head _)) (hgood rB (.tail _ (.head _)))]; rfl
  | mul rA rB => rw [exec, execMul, aluBinary_of_lt s (hgood rA (.head _)) (hgood rB (.tail _ (.head _)))]; rfl
  | inc r => rw [exec, execInc, aluUnary_of_lt s (hgood r (.head _))]; rfl
  | dec r =>
    rw [exec, execDec, aluUnary_of_lt s (hgood r (.head _)), instrWrites, ← ofNat_toNat_add_255]; rfl
  | cmp rA rB => rw [exec, execCmp, aluBinary_of_lt s (hgood rA (.head _)) (hgood rB (.tail _ (.head _)))]; rfl
  | jmp r => rw [exec, execJmp, jumpIf_of_lt s (hgood r (.head _))]; rfl
  | jeq r => rw [exec, execJeq, jumpIf_of_lt s (hgood r (.head _))]; rfl
  | jne r =>
    rw [exec, execJne, jumpIf_of_lt s (hgood r (.head _))]
    cases he : s.flags.equal <;> simp only [instrEnding, Instr.target, he] <;> rfl
  | st rA rB =>
    rw [exec, execSt, regIdx_bind (hgood rA (.head _)), regIdx_bind (hgood rB (.tail _ (.head _))), State.storeAddress,
      memWrite_byte]; rfl

theorem exec_push_of_wellFormed {r : Byte} (s : State) (hwf : (Instr.push r).wellFormed = true) :
    exec (.push r) s = s.complete 1 (instrHandled (.push r) s) := by
  rw [exec, execPush, regIdx_bind (wellFormed_iff.1 hwf r (.head _)), pushByte_eq, instrHandled, instrFault_push s hwf]
  split <;> rfl

theorem exec_pop_of_wellFormed {r : Byte} (s : State) (hwf : (Instr.pop r).wellFormed = true) :
    exec (.pop r) s = s.complete 1 (instrHandled (.pop r) s) := by
  rw [exec, execPop, regIdx_bind (wellFormed_iff.1 hwf r (.head _)), popByte_eq, instrHandled, instrFault_pop s hwf]
  split <;> rfl

theorem returnAddress_of_fits {s : State} (h : s.pc.toNat + 2 ≤ 255) :
    s.returnAddress = .ok (BitVec.ofNat 8 (s.pc.toNat + 2)) :=
  if_pos (Nat.lt_succ_of_le h)

theorem returnAddress_of_gt {s : State} (h : 255 < s.pc.toNat + 2) :
    s.returnAddress = .error (.addressFault (s.pc.toNat + 2)) :=
  if_neg (Nat.not_lt.2 h)

theorem exec_call_of_wellFormed {r : Byte} (s : State) (hwf : (Instr.call r).wellFormed = true) :
    exec (.call r) s = s.complete 1 (instrHandled (.call r) s) := by
  rw [exec, execCall, regIdx_bind (wellFormed_iff.1 hwf r (.head _)), instrHandled, instrFault_call s hwf]
  obtain hpast | hfits := Nat.lt_or_ge 255 (s.pc.toNat + 2)
  · rw [if_pos hpast, returnAddress_of_gt hpast]; rfl
  · rw [if_neg (Nat.not_lt.2 hfits), returnAddress_of_fits hfits]
    change s.complete 1 (s.pushByte _ >>= _) = _
    rw [pushByte_eq]
    split <;> rfl

theorem exec_ret (s : State) : exec .ret s = s.complete 0 (instrHandled .ret s) := by
  rw [exec, execRet, popByte_eq, instrHandled, instrFault_ret]
  split <;> rfl

/-- The meaning of every instruction in every state: the engine completes the first failing check's fault or the
instruction's writes. -/
theorem exec_eq (i : Instr) (s : State) : exec i s = s.complete i.operands.length (instrHandled i s) := by
  by_cases hwf : i.wellFormed = true
  · by_cases hop : i.opcode ∈ [Opcode.push, .pop, .call, .ret]
    · cases i with
      | push r => exact exec_push_of_wellFormed s hwf
      | pop r => exact exec_pop_of_wellFormed s hwf
      | call r => exact exec_call_of_wellFormed s hwf
      | ret => exact exec_ret s
      | _ => simp [Instr.opcode] at hop
    · rw [exec_of_stackless s hwf hop, instrHandled_of_none (instrFault_of_stackless s hwf hop)]
  · obtain ⟨b, hb⟩ := Option.ne_none_iff_exists'.1 (mt wellFormed_iff_firstBadReg.2 hwf)
    rw [exec_of_firstBadReg s hb, instrHandled_of_some (instrFault_of_firstBadReg s hb), complete_error]

theorem exec_of_instrFault {i : Instr} {s : State} {f : Raised} (h : s.instrFault i = some f) :
    exec i s = .next (s.takeFault f) := by
  rw [exec_eq, instrHandled_of_some h, complete_error]

theorem exec_of_no_instrFault {i : Instr} {s : State} (h : s.instrFault i = none) :
    exec i s = .next { instrWrites i s with pc := s.nextPc i.operands.length (instrEnding i s) } := by
  rw [exec_eq, instrHandled_of_none h, complete_ok]

/-- Everything an instruction can do. -/
theorem exec_next_cases {i : Instr} {s t : State} (h : exec i s = .next t) :
    (∃ f, s.instrFault i = some f ∧ t = s.takeFault f) ∨
      (s.instrFault i = none ∧ t = { instrWrites i s with pc := s.nextPc i.operands.length (instrEnding i s) }) := by
  cases hf : s.instrFault i with
  | some f => rw [exec_of_instrFault hf] at h; cases h; exact .inl ⟨f, rfl, rfl⟩
  | none => rw [exec_of_no_instrFault hf] at h; cases h; exact .inr ⟨rfl, rfl⟩

end Sys2Proof.Machine

/-! ## The result of each instruction (42_output.md to 46_store.md) -/

namespace Sys2Proof.Machine

/-! ### Instructions over register bytes -/

theorem wellFormed_of_one {i : Instr} {k : Fin 8} (h : i.regOperands = [regByte k]) : i.wellFormed = true := by
  simp [wellFormed_iff, h]

theorem wellFormed_of_two {i : Instr} {a c : Fin 8} (h : i.regOperands = [regByte a, regByte c]) :
    i.wellFormed = true := by
  simp [wellFormed_iff, h]

theorem exec_next_of_stackless {i : Instr} (s : State) (hwf : i.wellFormed = true)
    (hop : i.opcode ∉ [Opcode.push, .pop, .call, .ret]) :
    exec i s = .next { instrWrites i s with pc := s.nextPc i.operands.length (instrEnding i s) } :=
  exec_of_no_instrFault (instrFault_of_stackless s hwf hop)

theorem ofNat_regByte (k : Fin 8) : Fin.ofNat 8 (regByte k).toNat = k := regOf_regByte k

theorem instrEnding_of_control {i : Instr} {s : State} (h : i.opcode.pcControlling = true) :
    instrEnding i s = .transfer (i.target s) :=
  if_pos h

theorem instrEnding_of_no_control {i : Instr} {s : State} (h : i.opcode.pcControlling = false) :
    instrEnding i s = .neutral :=
  if_neg (by simp [h])

/-! ### Output, the ALU, the jumps and the store -/

/-- Settles O19: the one write is the event of the register's byte. -/
theorem printsEmitOneEvent : Obligations.PrintsEmitOneEvent := by
  intro i s
  constructor
  all_goals
    rw [exec_next_of_stackless s (wellFormed_of_one rfl) (by simp [Instr.opcode]), instrWrites, regOf_regByte]
    rfl

/-- Settles O20: the one write is the sum or the product, modulo 256, of what the registers held. -/
theorem addAndMulWrap : Obligations.AddAndMulWrap := by
  intro a c s
  constructor
  all_goals
    rw [exec_next_of_stackless s (wellFormed_of_two rfl) (by simp [Instr.opcode]), instrWrites, regOf_regByte,
      regOf_regByte]
    rfl

/-- Settles O21: the one write is what the register held, one up or one down modulo 256. -/
theorem incAndDecWrap : Obligations.IncAndDecWrap := by
  intro i s
  constructor
  all_goals
    rw [exec_next_of_stackless s (wellFormed_of_one rfl) (by simp [Instr.opcode]), instrWrites, regOf_regByte]
    rfl

/-- The flags of a comparison in the order of bytes. -/
theorem compareFlags_eq (u v : Byte) : compareFlags u v = ⟨decide (u = v), decide (u < v), decide (v < u)⟩ := by
  simp [compareFlags, BitVec.toNat_inj, BitVec.lt_def]

/-- Settles O22: the one write is the flags of the comparison. -/
theorem cmpComparesUnsigned : Obligations.CmpComparesUnsigned := by
  intro a c s
  rw [exec_cmp_regByte, complete_ok, compareFlags_eq]; rfl

/-- Settles O27: the jumps write nothing, and their target is the register's byte or the next instruction. -/
theorem jumpsFollowTheEqualFlag : Obligations.JumpsFollowTheEqualFlag := by
  intro i s
  refine ⟨?jmp, ?jeq, ?jne⟩
  all_goals
    rw [exec_next_of_stackless s (wellFormed_of_one rfl) (by simp [Instr.opcode]), instrEnding_of_control rfl,
      Instr.target, ofNat_regByte]
    rfl

/-- Settles O28: the one write is the byte of the second register at the address in the first. -/
theorem stStoresTheRegister : Obligations.StStoresTheRegister := by
  intro a c s
  rw [exec_next_of_stackless s (wellFormed_of_two rfl) (by simp [Instr.opcode]), instrWrites, regOf_regByte,
    regOf_regByte]; rfl

/-! ### The stack instructions -/

/-- A push with room for it, in terms of the stack pointer's number. -/
theorem pushed_eq {s : State} (h : s.x[7] ≠ 0) (v : Byte) :
    s.pushed v = { s with mem := s.mem.write (s.x[7].toNat - 1) v, x := s.x.set 7 (s.x[7] - 1) } := by
  rw [← push_address h]; rfl

/-- Settles O23: the check is the stack bound alone, and the write is the push of what the register held. -/
theorem pushStoresBelowTheStackPointer : Obligations.PushStoresBelowTheStackPointer := by
  intro i s
  have hcheck := instrFault_push s (wellFormed_of_one (i := .push (regByte i)) rfl)
  constructor
  · intro hsp
    rw [exec_of_no_instrFault (hcheck.trans (if_neg hsp)), instrWrites, regOf_regByte, pushed_eq hsp]; rfl
  · intro hsp
    have hsp : s.sp = 0 := hsp
    rw [exec_of_instrFault (hcheck.trans (if_pos hsp)), hsp]; rfl

theorem stackEmpty_le_iff {sp : Byte} : Config.stackEmpty ≤ sp ↔ 244 ≤ sp.toNat := BitVec.le_def

/-- Settles O24: the check is the stack bound alone, and the destination is written after the stack pointer. -/
theorem popLoadsTheTopOfTheStack : Obligations.PopLoadsTheTopOfTheStack := by
  intro i s
  have hcheck := instrFault_pop s (wellFormed_of_one (i := .pop (regByte i)) rfl)
  constructor
  · intro hsp
    rw [exec_of_no_instrFault (hcheck.trans (if_neg (mt stackEmpty_le_iff.1 (Nat.not_le.2 hsp)))), instrWrites,
      regOf_regByte]; rfl
  · intro hsp
    rw [exec_of_instrFault (hcheck.trans (if_pos (stackEmpty_le_iff.2 hsp)))]; rfl

/-- Settles O25: the return address is checked before the stack bound, and the push leaves the register read before it. -/
theorem callPushesTheReturnAddress : Obligations.CallPushesTheReturnAddress := by
  intro i s
  have hcheck := instrFault_call s (wellFormed_of_one (i := .call (regByte i)) rfl)
  refine ⟨fun hpc hsp => ?_, fun hpc => ?_, fun hpc hsp => ?_⟩
  · rw [exec_of_no_instrFault (hcheck.trans ((if_neg (by omega)).trans (if_neg hsp))), instrWrites, pushed_eq hsp,
      instrEnding_of_control rfl, Instr.target, ofNat_regByte]; rfl
  · rw [exec_of_instrFault (hcheck.trans (if_pos (by omega))), hpc]; rfl
  · have hsp : s.sp = 0 := hsp
    rw [exec_of_instrFault (hcheck.trans ((if_neg (by omega)).trans (if_pos hsp))), hsp]; rfl

/-- Settles O26: the check is the stack bound alone, and the target is the byte the stack pointer points to. -/
theorem retPopsThePc : Obligations.RetPopsThePc := by
  intro s
  constructor
  · intro hsp
    rw [exec_of_no_instrFault ((instrFault_ret s).trans (if_neg (mt stackEmpty_le_iff.1 (Nat.not_le.2 hsp))))]; rfl
  · intro hsp
    rw [exec_of_instrFault ((instrFault_ret s).trans (if_pos (stackEmpty_le_iff.2 hsp)))]; rfl

end Sys2Proof.Machine

/-! ## Frames: what an instruction leaves unchanged (10_state.md R22, 20_memory.md R41, 60_exceptions.md R196) -/

namespace Sys2Proof.Machine

/-! ### What the writes leave and set, part by part -/

section Writes
variable (i : Instr) (s : State)

theorem instrWrites_status : (instrWrites i s).status = if i = .hlt then .halted else s.status := by
  cases i <;> rfl

@[simp] theorem instrWrites_faultCode : (instrWrites i s).faultCode = s.faultCode := by cases i <;> rfl
@[simp] theorem instrWrites_faultPc : (instrWrites i s).faultPc = s.faultPc := by cases i <;> rfl
@[simp] theorem instrWrites_faultInfo : (instrWrites i s).faultInfo = s.faultInfo := by cases i <;> rfl

theorem instrWrites_out : (instrWrites i s).out = s.out ++ i.events s := by
  cases i with
  | prn | pra => rfl
  | _ => exact (List.append_nil _).symm

variable {i}

theorem instrWrites_mem_of_no_store (hst : ∀ rA rB, i ≠ .st rA rB) (hpush : ∀ r, i ≠ .push r)
    (hcall : ∀ r, i ≠ .call r) : (instrWrites i s).mem = s.mem := by
  cases i with
  | st rA rB => exact absurd rfl (hst rA rB)
  | push r => exact absurd rfl (hpush r)
  | call r => exact absurd rfl (hcall r)
  | _ => rfl

end Writes

/-! ### Registers -/

/-- An instruction none of whose checks fails has good register operands. -/
theorem wellFormed_of_no_instrFault {i : Instr} {s : State} (h : s.instrFault i = none) : i.wellFormed = true := by
  rw [wellFormed_iff_firstBadReg]
  cases hb : firstBadReg i.regOperands with
  | none => rfl
  | some b => rw [instrFault_of_firstBadReg s hb] at h; cases h

/-- A register whose byte an operand is not is not the register that operand names. -/
theorem ne_regOf {b : Byte} {j : Fin 8} (hb : b.toNat < 8) (h : regByte j ≠ b) : j ≠ regOf b := by
  rintro rfl
  rw [eq_regByte hb, regOf_regByte] at h
  exact h rfl

theorem ne_seven {j : Fin 8} (h : regByte j ≠ 7) : j ≠ 7 := by
  rintro rfl
  exact h rfl

theorem pushed_reg_of_ne {j : Fin 8} (h : j ≠ 7) (s : State) (v : Byte) : (s.pushed v).reg j = s.reg j :=
  reg_setReg_of_ne _ _ _ _ h

/-- The writes of an instruction leave every register but those of the table of 10_state.md R22. -/
theorem instrWrites_reg {i : Instr} {j : Fin 8} (s : State) (hwf : i.wellFormed = true) (hj : regByte j ∉ i.writtenRegs) :
    (instrWrites i s).reg j = s.reg j := by
  have hgood := wellFormed_iff.1 hwf
  cases i with
  | hlt | prn | pra | cmp | jmp | jeq | jne | st => rfl
  | ldi r | inc r | dec r | add r | mul r =>
    exact reg_setReg_of_ne _ _ _ _ (ne_regOf (hgood r (.head _)) (List.ne_of_not_mem_cons hj))
  | push | call => exact pushed_reg_of_ne (ne_seven (List.ne_of_not_mem_cons hj)) s _
  | ret => exact reg_setReg_of_ne _ _ _ _ (ne_seven (List.ne_of_not_mem_cons hj))
  | pop r =>
    have hsp : j ≠ 7 := ne_seven (List.ne_of_not_mem_cons hj)
    have hdest : j ≠ regOf r :=
      ne_regOf (hgood r (.head _)) (List.ne_of_not_mem_cons (List.not_mem_of_not_mem_cons hj))
    rw [instrWrites, reg_setReg_of_ne _ _ _ _ hdest, reg_setReg_of_ne _ _ _ _ hsp]

/-- Settles O32: a fault writes no register, and the writes of an instruction go to its destination and the stack
pointer alone. -/
theorem unwrittenRegistersKept : Obligations.UnwrittenRegistersKept := by
  intro i s t h j hj
  obtain ⟨f, -, rfl⟩ | ⟨hnone, rfl⟩ := exec_next_cases h
  · rfl
  · exact instrWrites_reg s (wellFormed_of_no_instrFault hnone) hj

/-! ### Memory -/

/-- Memory after an instruction: as it was when a fault was taken, else as its writes leave it. -/
theorem exec_mem_cases {i : Instr} {s t : State} (h : exec i s = .next t) :
    t.mem = s.mem ∨ (s.instrFault i = none ∧ t.mem = (instrWrites i s).mem) := by
  obtain ⟨f, -, rfl⟩ | ⟨hnone, rfl⟩ := exec_next_cases h
  · exact .inl rfl
  · exact .inr ⟨hnone, rfl⟩

/-- Settles O33: neither a fault nor the writes of these instructions touch memory. -/
theorem nonStoringInstructionsKeepMemory : Obligations.NonStoringInstructionsKeepMemory := by
  intro i s t hst hpush hcall h a
  obtain hsame | ⟨-, hmem⟩ := exec_mem_cases h
  · rw [hsame]
  · rw [hmem, instrWrites_mem_of_no_store s hst hpush hcall]

theorem pushSlot_of_ne_zero {sp : Byte} (h : sp ≠ 0) : pushSlot sp = .ok (sp - 1) := if_neg h

theorem sp_ne_zero_of_push {s : State} {r : Byte} (h : s.instrFault (.push r) = none) : s.sp ≠ 0 := by
  intro hsp
  rw [instrFault_push s (wellFormed_of_no_instrFault h), if_pos hsp] at h
  cases h

theorem call_checks {s : State} {r : Byte} (h : s.instrFault (.call r) = none) :
    s.pc.toNat + 2 ≤ 255 ∧ s.sp ≠ 0 := by
  rw [instrFault_call s (wellFormed_of_no_instrFault h)] at h
  split at h
  · cases h
  · next hpc =>
    split at h
    · cases h
    · next hsp => exact ⟨Nat.not_lt.1 hpc, hsp⟩

/-- Settles O34: the one memory write of each of the three is at the address the model computes. -/
theorem storesChangeOneByte : Obligations.StoresChangeOneByte := by
  refine ⟨fun rA rB s t h addr hne => ?st, fun r s t h addr hne => ?push, fun r s t h addr hne => ?call⟩
  case st =>
    obtain hsame | ⟨hnone, hmem⟩ := exec_mem_cases h
    · rw [hsame]
    · have hA : rA.toNat < 8 := wellFormed_iff.1 (wellFormed_of_no_instrFault hnone) rA (.head _)
      rw [hmem]
      exact Memory.read_write_ne _ (hne _ (regIdx_of_lt hA))
  case push =>
    obtain hsame | ⟨hnone, hmem⟩ := exec_mem_cases h
    · rw [hsame]
    · rw [hmem]
      exact Memory.read_write_ne _ (hne _ (pushSlot_of_ne_zero (sp_ne_zero_of_push hnone)))
  case call =>
    obtain hsame | ⟨hnone, hmem⟩ := exec_mem_cases h
    · rw [hsame]
    · obtain ⟨-, hsp⟩ := call_checks hnone
      rw [hmem]
      exact Memory.read_write_ne _ (hne _ (pushSlot_of_ne_zero hsp))

/-! ### Console output -/

theorem consolePort_of_same {s t : State} (h : t.out = s.out) : consolePort s t = ⟨false, none, none⟩ := by
  simp [consolePort, h]

theorem outKind_bits (k : OutKind) : k.bits = if k = .char then 1 else 0 := by cases k <;> rfl

theorem consolePort_of_event {s t : State} {e : OutEvent} {es : List OutEvent} (h : t.out = s.out ++ e :: es) :
    consolePort s t = ⟨true, some (if e.kind = .char then 1 else 0), some e.value⟩ := by
  simp [consolePort, h, outKind_bits]

/-- Settles O35: a fault emits nothing, the writes of an instruction append its events, and the port shows what was
appended. -/
theorem outputGrowsByTheInstructionsEvents : Obligations.OutputGrowsByTheInstructionsEvents := by
  intro i s t h
  obtain ⟨f, hsome, rfl⟩ | ⟨hnone, rfl⟩ := exec_next_cases h
  · exact ⟨fun _ => ⟨rfl, consolePort_of_same rfl⟩, fun hnone => absurd hnone (by simp [hsome])⟩
  · have hout := instrWrites_out i s
    refine ⟨fun hsome => absurd hnone hsome, fun _ => ⟨hout, ?_⟩⟩
    cases he : i.events s with
    | nil => exact consolePort_of_same (by simpa [he] using hout)
    | cons e es => exact consolePort_of_event (he ▸ hout)

/-! ### The status and the fault record -/

/-- Settles O36: the first failing check decides, and of the writes only HLT's reach the status. -/
theorem everyInstructionCompletesOrTakesItsFault : Obligations.EveryInstructionCompletesOrTakesItsFault := by
  refine fun i s => ⟨fun f hf => exec_of_instrFault hf, fun hnone => ?_⟩
  exact ⟨_, exec_of_no_instrFault hnone, instrWrites_status i s, instrWrites_faultCode i s, instrWrites_faultPc i s,
    instrWrites_faultInfo i s⟩

end Sys2Proof.Machine

/-! ## Faults: which one a step reports, and what it leaves (60_exceptions.md sections 1 and 2) -/

namespace Sys2Proof.Machine

/-! ### The first failing check of a step (60_exceptions.md R187) -/

/-- An opcode uses the operand bytes it has and no more. -/
theorem assemble_range_map (o : Opcode) (f : Nat → Byte) :
    o.assemble ((List.range (operandCount o.code)).map f) = o.assemble [f 0, f 1] := by
  rw [operandCount_code]
  cases o <;> rfl

theorem firstFault_of_fetch_error {s : State} {f : Raised} (h : s.fetchInstr = .error f) : s.firstFault = some f := by
  obtain ⟨hpast, he⟩ | ⟨hpc, hnone, he⟩ | ⟨o, hpc, ho, ⟨k, hk1, hk, hlast, hmissing, he⟩ | ⟨-, hok⟩⟩ := fetchInstr_cases s
  · obtain rfl := Except.error.inj (he.symm.trans h)
    exact if_pos hpast
  · obtain rfl := Except.error.inj (he.symm.trans h)
    simp only [State.firstFault, if_neg (Nat.not_lt.2 hpc), hnone]
  · obtain rfl := Except.error.inj (he.symm.trans h)
    have hle := operandCount_le o
    rw [code_of_decodeOpcode ho] at hk hle
    simp only [State.firstFault, if_neg (Nat.not_lt.2 hpc), ho]
    obtain rfl | rfl : k = 1 ∨ k = 2 := by omega
    · rw [if_pos ⟨hk, hmissing⟩]
    · rw [if_neg (by omega), if_pos ⟨hk, hmissing⟩]
  · rw [hok] at h; cases h

theorem firstFault_of_fetch_ok {s : State} {i : Instr} (h : s.fetchInstr = .ok i) : s.firstFault = s.instrFault i := by
  obtain ⟨-, he⟩ | ⟨-, -, he⟩ | ⟨o, hpc, ho, ⟨k, -, -, -, -, he⟩ | ⟨hfit, hok⟩⟩ := fetchInstr_cases s
  · rw [he] at h; cases h
  · rw [he] at h; cases h
  · rw [he] at h; cases h
  · rw [hok, assemble_range_map] at h
    obtain rfl := Except.ok.inj h
    rw [code_of_decodeOpcode ho] at hfit
    simp only [State.firstFault, if_neg (Nat.not_lt.2 hpc), ho]
    rw [if_neg (by omega), if_neg (by omega)]

/-- Everything a step of a RUNNING core does: it takes the fault of the first failing check, or it fetches an instruction
whose checks all pass and completes it. -/
theorem step_running_cases {s : State} (hrun : s.status = .running) :
    (∃ f, s.firstFault = some f ∧ step s = .next (s.takeFault f)) ∨
      (s.firstFault = none ∧ ∃ i, s.fetchInstr = .ok i ∧ s.instrFault i = none ∧
        step s = .next { instrWrites i s with pc := s.nextPc i.operands.length (instrEnding i s) }) := by
  cases hfetch : s.fetchInstr with
  | error f => exact .inl ⟨f, firstFault_of_fetch_error hfetch, step_of_fetch_error hrun hfetch⟩
  | ok i =>
    rw [step_of_fetch_ok hrun hfetch, firstFault_of_fetch_ok hfetch]
    cases hf : s.instrFault i with
    | some f => exact .inl ⟨f, rfl, exec_of_instrFault hf⟩
    | none => exact .inr ⟨rfl, i, rfl, hf, exec_of_no_instrFault hf⟩

/-- The writes of an instruction never leave a RUNNING core FAULTED. -/
theorem instrWrites_status_ne_faulted {s : State} (i : Instr) (hrun : s.status = .running) :
    (instrWrites i s).status ≠ .faulted := by
  rw [instrWrites_status, hrun]
  split <;> nofun

/-- Settles O38: a step is the first failing check's fault taken, or the writes of an instruction. -/
theorem faultsByPriority : Obligations.FaultsByPriority := by
  intro s hrun
  obtain ⟨f, hf, hstep⟩ | ⟨hnone, i, -, -, hstep⟩ := step_running_cases hrun
  · refine ⟨fun f' hf' => ?_, fun hnone => ?_⟩
    · obtain rfl : f = f' := Option.some.inj (hf.symm.trans hf')
      exact hstep
    · rw [hf] at hnone; cases hnone
  · refine ⟨fun f hf => ?_, fun _ => ⟨_, hstep, instrWrites_status_ne_faulted i hrun⟩⟩
    rw [hnone] at hf; cases hf

/-- A step that ends FAULTED took the fault of the first failing check. -/
theorem step_faulted {s t : State} (hrun : s.status = .running) (hstep : step s = .next t) (ht : t.status = .faulted) :
    ∃ f, s.firstFault = some f ∧ t = s.takeFault f := by
  obtain ⟨f, hf, htake⟩ | ⟨-, i, -, -, hdone⟩ := step_running_cases hrun
  · rw [htake] at hstep; cases hstep
    exact ⟨f, hf, rfl⟩
  · rw [hdone] at hstep; cases hstep
    exact absurd ht (instrWrites_status_ne_faulted i hrun)

/-! ### What the failing checks report (60_exceptions.md R181 to R183) -/

/-- The faults of an instruction's own checks: a register byte above 7, CALL's return address above 255, or a stack
pointer out of bounds. -/
theorem instrFault_cases {s : State} {i : Instr} {f : Raised} (h : s.instrFault i = some f) :
    (∃ n, f = .addressFault n ∧ 8 ≤ n ∧ (n ≤ 255 ∨ n = s.pc.toNat + 2)) ∨
      (f = .stackFault s.sp ∧ (s.sp = 0 ∨ Config.stackEmpty ≤ s.sp)) := by
  unfold State.instrFault at h
  split at h
  · next b hb =>
    have hlt := b.isLt
    have hbad : 7 < b.toNat := by simpa using List.find?_some hb
    exact .inl ⟨b.toNat, (Option.some.inj h).symm, hbad, by omega⟩
  · split at h
    · next hcall => exact .inl ⟨_, (Option.some.inj h).symm, by omega, .inr rfl⟩
    · split at h
      · next hpush => exact .inr ⟨(Option.some.inj h).symm, .inl (sp_toNat_eq_zero.1 hpush.2)⟩
      · split at h
        · next hpop => exact .inr ⟨(Option.some.inj h).symm, .inr (stackEmpty_le_iff.2 hpop.2)⟩
        · cases h

/-- The faults of a step: an address above 255 or a register byte above 7, an opcode byte outside the table, or a stack
pointer out of bounds. -/
theorem firstFault_cases {s : State} {f : Raised} (h : s.firstFault = some f) :
    (∃ n, f = .addressFault n ∧ 8 ≤ n ∧ (n ≤ 257 ∨ n = s.pc.toNat)) ∨
      (s.pc.toNat ≤ 255 ∧ decodeOpcode (s.mem.read s.pc.toNat) = none ∧
        f = .illegalInstruction (s.mem.read s.pc.toNat)) ∨
      (f = .stackFault s.sp ∧ (s.sp = 0 ∨ Config.stackEmpty ≤ s.sp)) := by
  obtain ⟨hpast, he⟩ | ⟨hpc, hnone, he⟩ | ⟨o, hpc, ho, ⟨k, -, hk, -, hmissing, he⟩ | ⟨-, hok⟩⟩ := fetchInstr_cases s
  · rw [firstFault_of_fetch_error he] at h
    exact .inl ⟨_, (Option.some.inj h).symm, by omega, .inr rfl⟩
  · rw [firstFault_of_fetch_error he] at h
    exact .inr (.inl ⟨hpc, hnone, (Option.some.inj h).symm⟩)
  · rw [firstFault_of_fetch_error he] at h
    have hle := operandCount_le o
    exact .inl ⟨_, (Option.some.inj h).symm, by omega, by omega⟩
  · rw [firstFault_of_fetch_ok hok] at h
    obtain ⟨n, rfl, hn, hn'⟩ | hstack := instrFault_cases h
    · exact .inl ⟨n, rfl, hn, by omega⟩
    · exact .inr (.inr hstack)

theorem firstFault_code {s : State} {f : Raised} (h : s.firstFault = some f) :
    f.code = .illegalInstruction ∨ f.code = .addressFault ∨ f.code = .stackFault := by
  obtain ⟨n, rfl, -⟩ | ⟨-, -, rfl⟩ | ⟨rfl, -⟩ := firstFault_cases h
  · exact .inr (.inl rfl)
  · exact .inl rfl
  · exact .inr (.inr rfl)

/-- Settles O37: a step that ends FAULTED took a fault and did nothing else. -/
theorem faultsArePrecise : Obligations.FaultsArePrecise := by
  intro s t hrun hstep ht
  obtain ⟨f, hf, rfl⟩ := step_faulted hrun hstep ht
  refine ⟨rfl, fun hcode => ?_⟩
  have hf := firstFault_code hf
  rw [← takeFault_faultCode s f, hcode] at hf
  simp at hf

theorem decodedAluOp_ne_other (o : Opcode) (raw : PcWord) : decodedAluOp o ≠ some (.other raw) := by
  cases o <;> nofun

/-- Settles O39: the decoder's `alu_op` is one of the five kinds, and no check of a step reports the fourth cause. -/
theorem unsupportedOperationUnreachable : Obligations.UnsupportedOperationUnreachable := by
  refine ⟨decodedAluOp_ne_other, fun _ _ _ => rfl, fun s t hrun hstep ht => ?_⟩
  obtain ⟨f, hf, rfl⟩ := step_faulted hrun hstep ht
  exact firstFault_code hf

/-- Settles O40: the encoders of the status and of the cause, value by value. -/
theorem statusOutputCodes : Obligations.StatusOutputCodes := by
  intro s
  refine ⟨rfl, rfl, ?status, ?code⟩
  case status => rw [State.statusOut]; cases s.status <;> rfl
  case code => rw [State.statusOut]; cases s.faultCode <;> rfl

/-! ### The step engine (40_engine.md R81, R82) -/

/-- Settles O11: the decoder on the bytes at pc reads what the fetch reads. -/
theorem stepRunsTheDecodedInstruction : Obligations.StepRunsTheDecodedInstruction :=
  fun _ _ hrun hdec => step_of_decode hrun hdec

/-- Settles O12: outside RUNNING nothing is fetched. -/
theorem noStepOutsideRunning : Obligations.NoStepOutsideRunning := by
  intro s h
  rw [step, nextInstr_stopped h]; rfl

/-- Settles O13: the fetch reports the pc, which the record's 9 bits hold exactly. -/
theorem opcodeFetchPastTheTop : Obligations.OpcodeFetchPastTheTop := by
  intro s hrun hpast
  obtain ⟨-, he⟩ | ⟨hpc, -⟩ | ⟨o, hpc, -⟩ := fetchInstr_cases s
  · rw [step_of_fetch_error hrun he, Raised.addressFault, BitVec.ofNat_toNat, BitVec.setWidth_eq]
  · omega
  · omega

/-- Settles O46: the jump writes the pc alone, with the value it had. -/
theorem jumpToItselfChangesNothing : Obligations.JumpToItselfChangesNothing := by
  intro i s hrun hdec hself
  obtain ⟨hjmp, -⟩ := jumpsFollowTheEqualFlag i s
  rw [step_of_decode hrun hdec, hjmp, hself]

/-- Settles O48: the trace's three positions, one by one. -/
theorem debugTraceShowsPcBytesRegisters : Obligations.DebugTraceShowsPcBytesRegisters := by
  refine fun s => ⟨rfl, rfl, fun k => ?_⟩
  match k with
  | 0 | 1 | 2 => exact congrArg some (if_congr (Nat.lt_succ_iff (n := 255)) rfl rfl)

end Sys2Proof.Machine

/-! ## The stack and the store, one instruction after another (44_stack.md, 45_control_flow.md, 20_memory.md section 4) -/

namespace Sys2Proof.Machine

/-! ### The fetch after a store -/

theorem head?_bytesAtPc {s : State} (h : s.pc.toNat < 256) : s.bytesAtPc.head? = some (s.mem.read s.pc.toNat) := by
  rw [List.head?_eq_getElem?, bytesAtPc_get s (by decide), Nat.add_zero, if_pos h]

/-- A fetch from memory where a byte was just written at the pc reads that byte. -/
theorem head?_bytesAtPc_of_write {u : State} {m : Memory} {a : Nat} {v : Byte} (hwf : m.wf) (hmem : u.mem = m.write a v)
    (hpc : u.pc.toNat = a) (ha : a < 256) : u.bytesAtPc.head? = some v := by
  rw [head?_bytesAtPc (hpc ▸ ha), hmem, hpc, Memory.read_write_same hwf.1]

/-- Settles O42: each of the three leaves memory written at the address it stored to, and the fetch reads it there. -/
theorem nextFetchSeesTheStore : Obligations.NextFetchSeesTheStore := by
  intro s t u hwf hmem
  refine ⟨fun a c h hpc => ?st, fun i hsp h hpc => ?push, fun i hret hsp h hpc => ?call⟩
  case st =>
    rw [stStoresTheRegister a c s] at h; cases h
    exact head?_bytesAtPc_of_write hwf hmem hpc s.x[a].isLt
  case push =>
    rw [(pushStoresBelowTheStackPointer i s).1 hsp] at h; cases h
    have hlt := s.x[7].isLt
    exact head?_bytesAtPc_of_write hwf hmem (by omega) (by omega)
  case call =>
    rw [(callPushesTheReturnAddress i s).1 hret hsp] at h; cases h
    have hlt := s.x[7].isLt
    exact head?_bytesAtPc_of_write hwf hmem (by omega) (by omega)

/-! ### A push and the pop after it -/

/-- A pop undoes a push: the registers with the stack pointer moved there and back, the popped byte in its register. -/
theorem set_sp_set_sp_set (x : Vector Byte 8) (i : Fin 8) :
    ((x.set 7 (x[7] - 1)).set 7 (x[7] - 1 + 1)).set i x[i] = x := by
  rw [Vector.set_set, BitVec.sub_add_cancel, Vector.set_getElem_self]
  exact Vector.set_getElem_self i.isLt

/-- What a push with room for it leaves for the instructions after it. -/
theorem exec_push_regByte (i : Fin 8) {s : State} (hsp : s.x[7] ≠ 0) :
    ∃ t, exec (.push (regByte i)) s = .next t ∧ t.status = s.status ∧ t.x = s.x.set 7 (s.x[7] - 1) ∧
      t.x[7] = s.x[7] - 1 ∧ t.mem = s.mem.write (s.x[7].toNat - 1) s.x[i] :=
  ⟨_, (pushStoresBelowTheStackPointer i s).1 hsp, rfl, rfl, Vector.getElem_set_self _, rfl⟩

theorem sp_sub_one_toNat {sp : Byte} (h : sp ≠ 0) : (sp - 1).toNat + 1 = sp.toNat := by
  have hne : sp.toNat ≠ 0 := mt sp_toNat_eq_zero.1 h
  rw [push_address h]; omega

/-- Settles O43: the push moves the stack pointer to the byte it writes, which the pop reads when the bound lets it. -/
theorem pushThenPopRestores : Obligations.PushThenPopRestores := by
  intro i s hwf hsp
  obtain ⟨t, hpush, -, hx, hsp', hmem⟩ := exec_push_regByte i hsp
  have hdown := sp_sub_one_toNat hsp
  refine ⟨t, hpush, fun hle => ?_, fun hge => ?_⟩
  · have hroom : t.x[7].toNat < 244 := by rw [hsp']; omega
    refine ⟨_, (popLoadsTheTopOfTheStack i t).1 hroom, ?_⟩
    have htop : t.mem.read t.x[7].toNat = s.x[i] := by
      rw [hsp', hmem, push_address hsp, Memory.read_write_same hwf.1]
    change (t.x.set 7 (t.x[7] + 1)).set i (t.mem.read t.x[7].toNat) = s.x
    rw [htop, hsp', hx, set_sp_set_sp_set]
  · have hempty : 244 ≤ t.x[7].toNat := by rw [hsp']; omega
    exact (popLoadsTheTopOfTheStack i t).2 hempty

/-- Settles O44: the byte the call leaves at the stack pointer is its return address, and the pop moves the stack pointer
back up. -/
theorem callThenRetReturns : Obligations.CallThenRetReturns := by
  intro i s hwf hpc hsp hle
  refine ⟨_, (callPushesTheReturnAddress i s).1 hpc hsp, rfl, fun u hu hread => ?_⟩
  have hdown := sp_sub_one_toNat hsp
  have hu : u.x[7] = s.x[7] - 1 := hu.trans (Vector.getElem_set_self _)
  have hroom : u.x[7].toNat < 244 := by rw [hu]; omega
  have htop : u.mem.read u.x[7].toNat = BitVec.ofNat 8 (s.pc.toNat + 2) := by
    rw [hread, Vector.getElem_set_self, push_address hsp, Memory.read_write_same hwf.1]
  refine ⟨_, (retPopsThePc u).1 hroom, ?pc, ?sp⟩
  case pc =>
    apply BitVec.eq_of_toNat_eq
    have h2 : (2 : PcWord).toNat = 2 := rfl
    simp only [htop, BitVec.toNat_setWidth, BitVec.toNat_ofNat, BitVec.toNat_add, h2]
    omega
  case sp => simp only [Vector.getElem_set_self, hu, BitVec.sub_add_cancel]

/-! ### The capacity of the stack -/

theorem execAll_cons {i : Instr} {rest : List Instr} {s t : State} (hrun : s.status = .running)
    (h : exec i s = .next t) : execAll (i :: rest) s = execAll rest t := by
  rw [execAll, hrun]; simp only [h]

/-- As many pushes as the stack pointer's number all complete, and one more is StackFault(0). -/
theorem execAll_push (regs : List (Fin 8)) {s : State} (hrun : s.status = .running) :
    (regs.length ≤ s.x[7].toNat →
      ∃ t, execAll (regs.map fun i => .push (regByte i)) s = .next t ∧ t.status = .running ∧
        t.x[7].toNat = s.x[7].toNat - regs.length) ∧
    (regs.length = s.x[7].toNat + 1 →
      ∃ t, execAll (regs.map fun i => .push (regByte i)) s = .next t ∧ t.status = .faulted ∧
        t.faultCode = .stackFault ∧ t.faultInfo = 0) := by
  induction regs generalizing s with
  | nil => exact ⟨fun _ => ⟨s, rfl, hrun, rfl⟩, nofun⟩
  | cons i rest ih =>
    simp only [List.map_cons, List.length_cons]
    by_cases hsp : s.x[7] = 0
    · have hzero : s.x[7].toNat = 0 := sp_toNat_eq_zero.2 hsp
      refine ⟨fun hle => by omega, fun hlen => ?_⟩
      obtain rfl : rest = [] := List.eq_nil_of_length_eq_zero (by omega)
      rw [execAll_cons hrun ((pushStoresBelowTheStackPointer i s).2 hsp)]
      exact ⟨_, rfl, rfl, rfl, rfl⟩
    · obtain ⟨t, hpush, hstatus, -, hsp', -⟩ := exec_push_regByte i hsp
      have hdown := sp_sub_one_toNat hsp
      rw [execAll_cons hrun hpush, ← hdown, ← hsp']
      obtain ⟨hfit, hover⟩ := ih (hstatus.trans hrun)
      refine ⟨fun hle => ?_, fun hlen => hover (by omega)⟩
      obtain ⟨u, hu, hrun', hsp''⟩ := hfit (by omega)
      exact ⟨u, hu, hrun', by omega⟩

/-- Settles O45: the pushes counted from stack pointer 244, whatever registers they push. -/
theorem stackHolds244Bytes : Obligations.StackHolds244Bytes := by
  intro regs s hrun hsp
  have h := execAll_push regs hrun
  have h244 : s.x[7].toNat = 244 := by rw [hsp]; rfl
  rwa [h244] at h

end Sys2Proof.Machine

/-! ## The invariant (10_state.md R23, R26, R28; 60_exceptions.md R180 to R185) -/

namespace Sys2Proof.Machine

/-! ### Reset and the boot order -/

/-- A state that differs from reset in canonical memory and a status other than FAULTED satisfies the invariant. -/
theorem inv_of_reset_mem_status {m : Memory} {status : Status} (hwf : m.wf) (h : status ≠ .faulted) :
    State.Inv { State.reset with mem := m, status := status } where
  memory := hwf
  pcRange := (by decide : State.reset.pc.toNat ≤ 256)
  flags := (by decide : State.reset.flags.atMostOne)
  recordClear _ := ⟨rfl, rfl, rfl⟩
  recordTrue hf := absurd hf h

/-- Settles O49: reset memory is canonical and the status IDLE. -/
theorem resetSatisfiesInvariant : Obligations.ResetSatisfiesInvariant :=
  inv_of_reset_mem_status Memory.wf_nil (status := .idle) nofun

/-- Settles O50: the boot order leaves reset, or reset with a written image and RUNNING. -/
theorem bootSatisfiesInvariant : Obligations.BootSatisfiesInvariant := by
  intro s source
  cases himage : loaderImage source with
  | error e =>
    rw [hostBoot_of_error s himage]
    exact resetSatisfiesInvariant
  | ok image =>
    rw [hostBoot_of_ok s himage]
    exact inv_of_reset_mem_status (Memory.wf_writeBytes Memory.wf_nil 0 image) nofun

/-! ### A fault taken -/

theorem faultExplained_takeFault {s : State} {f : Raised} (hpc : s.pc.toNat ≤ 256) (h : s.firstFault = some f) :
    (s.takeFault f).faultExplained := by
  obtain ⟨n, rfl, hn, hn'⟩ | ⟨hle, hnone, rfl⟩ | ⟨rfl, hsp⟩ := firstFault_cases h
  · have hinfo : (BitVec.ofNat 9 n).toNat = n := by rw [BitVec.toNat_ofNat]; omega
    change 8 ≤ (BitVec.ofNat 9 n).toNat ∧ (BitVec.ofNat 9 n).toNat ≤ 258
    omega
  · exact ⟨Nat.lt_succ_of_le hle, hnone, rfl⟩
  · exact ⟨rfl, hsp⟩

theorem inv_takeFault {s : State} {f : Raised} (hinv : s.Inv) (h : s.firstFault = some f) : (s.takeFault f).Inv where
  memory := hinv.memory
  pcRange := hinv.pcRange
  flags := hinv.flags
  recordClear hne := absurd rfl hne
  recordTrue _ := ⟨rfl, faultExplained_takeFault hinv.pcRange h⟩

/-! ### An instruction completed -/

/-- The three instructions that store do so inside memory. -/
theorem instrWrites_mem_wf (i : Instr) {s : State} (h : s.mem.wf) : (instrWrites i s).mem.wf := by
  cases i with
  | push | call => exact Memory.wf_write h (s.sp - 1).isLt _
  | st rA => exact Memory.wf_write h (s.reg (regOf rA)).isLt _
  | _ => exact h

theorem compareFlags_atMostOne (u v : Byte) : (compareFlags u v).atMostOne := by
  simp only [Flags.atMostOne, compareFlags, decide_eq_true_eq]
  omega

theorem instrWrites_flags_atMostOne (i : Instr) {s : State} (h : s.flags.atMostOne) :
    (instrWrites i s).flags.atMostOne := by
  cases i with
  | cmp => exact compareFlags_atMostOne _ _
  | _ => exact h

theorem byteToPc_le (b : Byte) : (byteToPc b).toNat ≤ 256 := by
  have hlt := b.isLt
  rw [byteToPc_toNat]; omega

theorem pc_add_two_le {s : State} (h : s.pc.toNat + 1 ≤ 255) : (s.pc + 2).toNat ≤ 256 := by
  have hexact : (s.pcPlus 2).toNat = s.pc.toNat + 2 := pcPlus_toNat (by omega)
  change (s.pcPlus 2).toNat ≤ 256
  omega

/-- The target of an instruction that lies in memory is a byte, or the address after the instruction. -/
theorem target_le {i : Instr} {s : State} (hfit : s.pc.toNat + i.operands.length ≤ 255) : (i.target s).toNat ≤ 256 := by
  cases i with
  | call | ret | jmp => exact byteToPc_le _
  | jeq =>
    rw [Instr.target]
    split
    · exact byteToPc_le _
    · exact pc_add_two_le hfit
  | jne =>
    rw [Instr.target]
    split
    · exact pc_add_two_le hfit
    · exact byteToPc_le _
  | _ => exact Nat.le_succ_of_le (Nat.le_trans (Nat.le_add_right ..) hfit)

/-- The PC update of an instruction that lies in memory stays in range. -/
theorem nextPc_le {i : Instr} {s : State} (hfit : s.pc.toNat + i.operands.length ≤ 255) :
    (s.nextPc i.operands.length (instrEnding i s)).toNat ≤ 256 := by
  cases hc : i.opcode.pcControlling with
  | true =>
    rw [instrEnding_of_control hc]
    exact target_le hfit
  | false =>
    have hexact : (s.pcPlus (1 + i.operands.length)).toNat = s.pc.toNat + (1 + i.operands.length) :=
      pcPlus_toNat (by omega)
    rw [instrEnding_of_no_control hc, State.nextPc, hexact]
    omega

theorem inv_completed {i : Instr} {s : State} (hinv : s.Inv) (hrun : s.status = .running)
    (hfit : s.pc.toNat + i.operands.length ≤ 255) :
    State.Inv { instrWrites i s with pc := s.nextPc i.operands.length (instrEnding i s) } where
  memory := instrWrites_mem_wf i hinv.memory
  pcRange := nextPc_le hfit
  flags := instrWrites_flags_atMostOne i hinv.flags
  recordClear _ := by
    simpa using hinv.recordClear (by rw [hrun]; nofun)
  recordTrue hf := absurd hf (instrWrites_status_ne_faulted i hrun)

/-- Settles O51: a step takes the fault of the first failing check, which the state explains, or completes an
instruction that lies in memory. -/
theorem stepKeepsInvariant : Obligations.StepKeepsInvariant := by
  intro s t hinv hstep
  obtain ⟨hrun, -⟩ := step_next_cases hstep
  obtain ⟨f, hf, htake⟩ | ⟨-, i, hfetch, -, hdone⟩ := step_running_cases hrun
  · rw [htake] at hstep; cases hstep
    exact inv_takeFault hinv hf
  · rw [hdone] at hstep; cases hstep
    exact inv_completed hinv hrun (pc_add_operands_le_of_decode ((fetchInstr_ok_iff s i).1 hfetch))

end Sys2Proof.Machine

/-! ## What the engine never reads (10_state.md R25, 60_exceptions.md R196, R198) -/

namespace Sys2Proof.Machine

/-- `s` with everything that no instruction reads taken from `u`: L and G, the fault record and the output. -/
def State.withUnread (s u : State) : State :=
  { s with
    flags := ⟨s.flags.equal, u.flags.lessThan, u.flags.greaterThan⟩
    faultCode := u.faultCode
    faultPc := u.faultPc
    faultInfo := u.faultInfo
    out := u.out }

theorem State.agree.eq_withUnread {s s' : State} (h : s.agree s') : s' = s.withUnread s' := by
  obtain ⟨x, ⟨e, l, g⟩, pc, status, fc, fp, fi, mem, out⟩ := s'
  obtain ⟨hx, he, hpc, hstatus, hmem⟩ := h
  simp only [State.withUnread, State.mk.injEq, Flags.mk.injEq, and_true, true_and]
  exact ⟨hx.symm, he.symm, hpc.symm, hstatus.symm, hmem.symm⟩

section Unread
variable (i : Instr) (s u : State)

theorem fetchInstr_withUnread : (s.withUnread u).fetchInstr = s.fetchInstr := rfl

theorem instrFault_withUnread : (s.withUnread u).instrFault i = s.instrFault i := rfl

theorem events_withUnread : i.events (s.withUnread u) = i.events s := by cases i <;> rfl

theorem nextPc_withUnread (n : Nat) :
    (s.withUnread u).nextPc n (instrEnding i (s.withUnread u)) = s.nextPc n (instrEnding i s) := by
  cases i <;> rfl

theorem takeFault_agree (f : Raised) : (s.takeFault f).agree ((s.withUnread u).takeFault f) := ⟨rfl, rfl, rfl, rfl, rfl⟩

/-- An instruction writes the same registers, E, status and memory whatever the unread parts are. -/
theorem instrWrites_agree : (instrWrites i s).agree (instrWrites i (s.withUnread u)) := by
  cases i <;> exact ⟨rfl, rfl, rfl, rfl, rfl⟩

end Unread

/-- The step of a RUNNING core, whatever its unread parts are. -/
theorem step_withUnread {s : State} (u : State) (hrun : s.status = .running) :
    ∃ t t' events, step s = .next t ∧ step (s.withUnread u) = .next t' ∧ t.agree t' ∧
      t.out = s.out ++ events ∧ t'.out = u.out ++ events := by
  have hrun' : (s.withUnread u).status = .running := hrun
  have hfetch' := fetchInstr_withUnread s u
  cases hfetch : s.fetchInstr with
  | error f =>
    rw [hfetch] at hfetch'
    exact ⟨_, _, [], step_of_fetch_error hrun hfetch, step_of_fetch_error hrun' hfetch', takeFault_agree s u f,
      (List.append_nil _).symm, (List.append_nil _).symm⟩
  | ok i =>
    rw [hfetch] at hfetch'
    rw [step_of_fetch_ok hrun hfetch, step_of_fetch_ok hrun' hfetch']
    have hf' := instrFault_withUnread i s u
    cases hf : s.instrFault i with
    | some f =>
      rw [hf] at hf'
      exact ⟨_, _, [], exec_of_instrFault hf, exec_of_instrFault hf', takeFault_agree s u f,
        (List.append_nil _).symm, (List.append_nil _).symm⟩
    | none =>
      rw [hf] at hf'
      have hwrites := instrWrites_agree i s u
      refine ⟨_, _, i.events s, exec_of_no_instrFault hf, exec_of_no_instrFault hf',
        ⟨hwrites.x, hwrites.equal, (nextPc_withUnread i s u _).symm, hwrites.status, hwrites.mem⟩,
        instrWrites_out i s, ?_⟩
      rw [← events_withUnread i s u]
      exact instrWrites_out i (s.withUnread u)

/-- Settles O52: two states that agree differ in their unread parts only. -/
theorem unreadStateChangesNothing : Obligations.UnreadStateChangesNothing := by
  intro s s' h
  refine ⟨fun hrun => ?_, fun hstopped => ?_⟩
  · have hsteps := step_withUnread s' hrun
    rwa [← h.eq_withUnread] at hsteps
  · rw [noStepOutsideRunning s hstopped, noStepOutsideRunning s' (h.status ▸ hstopped), h.status]

end Sys2Proof.Machine
